-- ==== Sys2Proof/Word.lean ====
section
/-! DEFINITION. The widths of the machine's data (spec/00_scope.md R7, R9): bytes, words, and the
pieces of an instruction word. All quantities are unsigned. -/
namespace Sys2Proof

/-- An 8-bit value: a general register, a timer, a byte of memory (R20, R31, R35). -/
abbrev Byte := BitVec 8

/-- A 16-bit value: an instruction word, I, PC, a stack entry (R24, R25, R28, R80). -/
abbrev Word := BitVec 16

/-- Four bits of an instruction word (R10). -/
abbrev Nibble := BitVec 4

/-- The 12-bit address field of an instruction word (R66, R84). -/
abbrev Addr12 := BitVec 12

end Sys2Proof
end

