-- ==== Sys2Proof/Config.lean ====
section
/-! DEFINITION. The fixed parameters of spec/00_scope.md R7 and the three open ones of R8. The open
ones are the arguments of the model: a value of `Config` is fixed for the life of a machine, stands
beside the machine's state (notes/assumptions/2.md) and is changed by no step. -/
namespace Sys2Proof

/-- Bytes of memory, at addresses 0x000 to 0xFFF (R7 `MEM_SIZE`). -/
def memSize : Nat := 4096

/-- Entries of the call stack (R7 `STACK_DEPTH`). -/
def stackDepth : Nat := 16

/-- The reset value of PC and the load address of a program (R7 `PROGRAM_BASE`). -/
def programBase : Nat := 0x200

/-- Columns of the display plane (R7 `DISPLAY_W`). -/
def displayW : Nat := 64

/-- Rows of the display plane (R7 `DISPLAY_H`). -/
def displayH : Nat := 32

/-- Bytes of one built-in glyph (R7 `GLYPH_BYTES`). -/
def glyphBytes : Nat := 5

/-- The open parameters (R8). -/
structure Config where
  /-- `FONT_BASE`, 0 to 0x1B0. -/
  fontBase : Fin 0x1B1
  /-- `FONT_DATA`: none, or sixteen glyphs of five bytes. -/
  fontData : Option (Vector Byte 80)
  /-- `HALT_ON_SELF_JUMP`. -/
  haltOnSelfJump : Bool
  deriving DecidableEq, Repr

/-- R8's default column: font base 0x000, no font, no self-jump report. It is used for
`State.reset` only (notes/assumptions/3.md). -/
def Config.standard : Config where
  fontBase := 0
  fontData := none
  haltOnSelfJump := false

end Sys2Proof
end

