-- ==== Sys2Proof/Syntax.lean ====
section
/-! DEFINITION. The 28 instructions of spec/30_encoding.md R86, one constructor per row of
spec/opcode_table.json, each with the operands its mnemonic names and no others: the bits a word
carries without meaning (the low nibble of families 5 and 9, R90, and the y nibble of the two
shifts, R83) are no operand (notes/assumptions/6.md). -/
namespace Sys2Proof

/-- A general register number, the 4-bit fields x and y (R83): every value names a register. -/
abbrev Reg := BitVec 4

/-- The instructions, in the order of the opcode table. -/
inductive Instr where
  /-- `00E0` CLS (R181) -/
  | cls
  /-- `00EE` RET (R111) -/
  | ret
  /-- `1nnn` JP addr (R112) -/
  | jp (addr : Addr12)
  /-- `2nnn` CALL addr (R113) -/
  | call (addr : Addr12)
  /-- `3xkk` SE Vx, kk (R114) -/
  | seImm (x : Reg) (kk : Byte)
  /-- `4xkk` SNE Vx, kk (R115) -/
  | sneImm (x : Reg) (kk : Byte)
  /-- `5xy_` SE Vx, Vy (R116) -/
  | seReg (x y : Reg)
  /-- `6xkk` LD Vx, kk (R131) -/
  | ldImm (x : Reg) (kk : Byte)
  /-- `7xkk` ADD Vx, kk (R132) -/
  | addImm (x : Reg) (kk : Byte)
  /-- `8xy0` LD Vx, Vy (R134) -/
  | ldReg (x y : Reg)
  /-- `8xy1` OR Vx, Vy (R135) -/
  | orReg (x y : Reg)
  /-- `8xy2` AND Vx, Vy (R136) -/
  | andReg (x y : Reg)
  /-- `8xy3` XOR Vx, Vy (R137) -/
  | xorReg (x y : Reg)
  /-- `8xy4` ADD Vx, Vy (R138) -/
  | addReg (x y : Reg)
  /-- `8xy5` SUB Vx, Vy (R139) -/
  | subReg (x y : Reg)
  /-- `8x_6` SHR Vx (R140) -/
  | shr (x : Reg)
  /-- `8xy7` SUBN Vx, Vy (R141) -/
  | subnReg (x y : Reg)
  /-- `8x_E` SHL Vx (R142) -/
  | shl (x : Reg)
  /-- `9xy_` SNE Vx, Vy (R117) -/
  | sneReg (x y : Reg)
  /-- `Annn` LD I, addr (R161) -/
  | ldI (addr : Addr12)
  /-- `Dxyn` DRW Vx, Vy, n (R183) -/
  | drw (x y : Reg) (n : Nibble)
  /-- `Fx07` LD Vx, DT (R201) -/
  | ldVxDt (x : Reg)
  /-- `Fx15` LD DT, Vx (R202) -/
  | ldDtVx (x : Reg)
  /-- `Fx18` LD ST, Vx (R203) -/
  | ldStVx (x : Reg)
  /-- `Fx1E` ADD I, Vx (R162) -/
  | addI (x : Reg)
  /-- `Fx29` LD F, Vx (R163) -/
  | ldF (x : Reg)
  /-- `Fx55` LD [I], Vx (R164) -/
  | storeRegs (x : Reg)
  /-- `Fx65` LD Vx, [I] (R165) -/
  | loadRegs (x : Reg)
  deriving DecidableEq, Repr

end Sys2Proof
end

