-- ==== Sys2Proof/WellFormed.lean ====
section
/-! DEFINITION. What makes an instruction, and a program handed to the loader, well formed. -/
namespace Sys2Proof

/-- Every register number, byte, nibble and 12-bit address is legal in every instruction that has
the field (R83, R84), and each operand's type is exactly its field: no check is left to make.
The constructors are written out so that a new one must be considered here. -/
def Instr.wellFormed : Instr → Bool
  | .cls | .ret | .jp _ | .call _ | .seImm _ _ | .sneImm _ _ | .seReg _ _ => true
  | .ldImm _ _ | .addImm _ _ | .ldReg _ _ | .orReg _ _ | .andReg _ _ | .xorReg _ _ => true
  | .addReg _ _ | .subReg _ _ | .shr _ | .subnReg _ _ | .shl _ | .sneReg _ _ => true
  | .ldI _ | .drw _ _ _ | .ldVxDt _ | .ldDtVx _ | .ldStVx _ | .addI _ | .ldF _ => true
  | .storeRegs _ | .loadRegs _ => true

/-- A program the loader can place whole: at most 4096 − 0x200 = 3584 bytes (R262, R264). -/
def romFits (rom : List Byte) : Bool :=
  decide (programBase + rom.length ≤ memSize)

end Sys2Proof
end

