-- ==== Sys2Proof/Decode.lean ====
section
/-! DEFINITION. Decoding and encoding (spec/30_encoding.md). `decodeWord` is the procedure of R85,
`decodeBytes` takes the bytes as memory holds them (big-endian, R53, R80), `encode` writes the
canonical word of each row of R86 (R90, R99), and `opcodeTable` is R86's match/mask column, against
which the two are checked. -/
namespace Sys2Proof

/-! ### The nibbles of a word (R10, R81) -/

/-- Nibble a, bits 15–12: the family. -/
def nibbleA (w : Word) : Nibble := w.extractLsb' 12 4

/-- Nibble b, bits 11–8: the operand x (R13, R83). -/
def nibbleB (w : Word) : Nibble := w.extractLsb' 8 4

/-- Nibble c, bits 7–4: the operand y (R13, R83). -/
def nibbleC (w : Word) : Nibble := w.extractLsb' 4 4

/-- Nibble d, bits 3–0: the operand n (R13, R84). -/
def nibbleD (w : Word) : Nibble := w.extractLsb' 0 4

/-- The low byte `(c<<4)|d`: the operand kk (R84). -/
def lowByte (w : Word) : Byte := w.extractLsb' 0 8

/-- The high byte `(a<<4)|b`, the first byte of the word in memory (R10). -/
def highByte (w : Word) : Byte := w.extractLsb' 8 8

/-- The operand addr, `(b<<8)|(c<<4)|d` (R84). -/
def addrField (w : Word) : Addr12 := w.extractLsb' 0 12

/-- The word whose first byte (lower address) is `hi` (R53). -/
def wordOfBytes (hi lo : Byte) : Word := hi ++ lo

/-! ### Decoding -/

/-- Why bits are no instruction, one name per row of R95, and the case of too few bytes. -/
inductive DecodeRefusal where
  /-- Family 0, neither 0x00E0 nor 0x00EE (R88). -/
  | family0
  /-- Family 8 with a low nibble 8 to D or F (R91). -/
  | family8
  /-- Family B: no operation (R94). -/
  | familyB
  /-- Family C: no operation (R94). -/
  | familyC
  /-- Family E: no operation (R92). -/
  | familyE
  /-- Family F with none of the seven low bytes (R93). -/
  | familyF
  /-- Fewer than the two bytes every instruction has (R80). -/
  | truncated
  deriving DecidableEq, Repr

/-- R85's dispatch of family 8 on nibble d. -/
def decodeFamily8 (x y : Reg) (d : Nibble) : Except DecodeRefusal Instr :=
  match d with
  | 0x0#4 => .ok (.ldReg x y)
  | 0x1#4 => .ok (.orReg x y)
  | 0x2#4 => .ok (.andReg x y)
  | 0x3#4 => .ok (.xorReg x y)
  | 0x4#4 => .ok (.addReg x y)
  | 0x5#4 => .ok (.subReg x y)
  | 0x6#4 => .ok (.shr x)
  | 0x7#4 => .ok (.subnReg x y)
  | 0xE#4 => .ok (.shl x)
  | _ => .error .family8

/-- R85's dispatch of family F on the low byte. -/
def decodeFamilyF (x : Reg) (low : Byte) : Except DecodeRefusal Instr :=
  match low with
  | 0x07#8 => .ok (.ldVxDt x)
  | 0x15#8 => .ok (.ldDtVx x)
  | 0x18#8 => .ok (.ldStVx x)
  | 0x1E#8 => .ok (.addI x)
  | 0x29#8 => .ok (.ldF x)
  | 0x55#8 => .ok (.storeRegs x)
  | 0x65#8 => .ok (.loadRegs x)
  | _ => .error .familyF

/-- R85's dispatch of family 0 on the whole word (R88). -/
def decodeFamily0 (w : Word) : Except DecodeRefusal Instr :=
  if w = 0x00E0#16 then .ok .cls
  else if w = 0x00EE#16 then .ok .ret
  else .error .family0

/-- The decode procedure (R85), a function of the word alone, total on all 65536 words (R97). -/
def decodeWord (w : Word) : Except DecodeRefusal Instr :=
  match nibbleA w with
  | 0x0#4 => decodeFamily0 w
  | 0x1#4 => .ok (.jp (addrField w))
  | 0x2#4 => .ok (.call (addrField w))
  | 0x3#4 => .ok (.seImm (nibbleB w) (lowByte w))
  | 0x4#4 => .ok (.sneImm (nibbleB w) (lowByte w))
  | 0x5#4 => .ok (.seReg (nibbleB w) (nibbleC w))
  | 0x6#4 => .ok (.ldImm (nibbleB w) (lowByte w))
  | 0x7#4 => .ok (.addImm (nibbleB w) (lowByte w))
  | 0x8#4 => decodeFamily8 (nibbleB w) (nibbleC w) (nibbleD w)
  | 0x9#4 => .ok (.sneReg (nibbleB w) (nibbleC w))
  | 0xA#4 => .ok (.ldI (addrField w))
  | 0xB#4 => .error .familyB
  | 0xC#4 => .error .familyC
  | 0xD#4 => .ok (.drw (nibbleB w) (nibbleC w) (nibbleD w))
  | 0xE#4 => .error .familyE
  | _ => decodeFamilyF (nibbleB w) (lowByte w)

/-- Decoding from bytes as memory holds them: two bytes, high byte first (R80), and the rest. -/
def decodeBytes : List Byte → Except DecodeRefusal (Instr × List Byte)
  | hi :: lo :: rest => (decodeWord (wordOfBytes hi lo)).map (·, rest)
  | _ => .error .truncated

/-! ### Encoding -/

/-- Format ADDR (R82). -/
def formAddr (a : Nibble) (addr : Addr12) : Word := a ++ addr

/-- Format XKK (R82). -/
def formXkk (a : Nibble) (x : Reg) (kk : Byte) : Word := a ++ (x ++ kk : Addr12)

/-- Formats XY and XYN (R82): two registers and a last nibble. -/
def formXyn (a : Nibble) (x y : Reg) (d : Nibble) : Word := a ++ (x ++ (y ++ d : Byte) : Addr12)

/-- Format X (R82): family F with a fixed low byte. -/
def formX (x : Reg) (low : Byte) : Word := formXkk 0xF#4 x low

/-- The word an assembler emits for the instruction (R86): the meaningless bits are 0 (R90, R99). -/
def encode : Instr → Word
  | .cls => 0x00E0#16
  | .ret => 0x00EE#16
  | .jp addr => formAddr 0x1#4 addr
  | .call addr => formAddr 0x2#4 addr
  | .seImm x kk => formXkk 0x3#4 x kk
  | .sneImm x kk => formXkk 0x4#4 x kk
  | .seReg x y => formXyn 0x5#4 x y 0x0#4
  | .ldImm x kk => formXkk 0x6#4 x kk
  | .addImm x kk => formXkk 0x7#4 x kk
  | .ldReg x y => formXyn 0x8#4 x y 0x0#4
  | .orReg x y => formXyn 0x8#4 x y 0x1#4
  | .andReg x y => formXyn 0x8#4 x y 0x2#4
  | .xorReg x y => formXyn 0x8#4 x y 0x3#4
  | .addReg x y => formXyn 0x8#4 x y 0x4#4
  | .subReg x y => formXyn 0x8#4 x y 0x5#4
  | .shr x => formXyn 0x8#4 x 0x0#4 0x6#4
  | .subnReg x y => formXyn 0x8#4 x y 0x7#4
  | .shl x => formXyn 0x8#4 x 0x0#4 0xE#4
  | .sneReg x y => formXyn 0x9#4 x y 0x0#4
  | .ldI addr => formAddr 0xA#4 addr
  | .drw x y n => formXyn 0xD#4 x y n
  | .ldVxDt x => formX x 0x07#8
  | .ldDtVx x => formX x 0x15#8
  | .ldStVx x => formX x 0x18#8
  | .addI x => formX x 0x1E#8
  | .ldF x => formX x 0x29#8
  | .storeRegs x => formX x 0x55#8
  | .loadRegs x => formX x 0x65#8

/-- A word as memory holds it: the high byte at the lower address (R53, R80). -/
def wordBytes (w : Word) : List Byte := [highByte w, lowByte w]

/-- The instruction's bytes in memory order. -/
def encodeBytes (i : Instr) : List Byte := wordBytes (encode i)

/-! ### The opcode table (R86) -/

/-- One row of R86: the word w selects the row iff `w & mask = pattern`. -/
structure OpcodeRow where
  mnemonic : String
  pattern : Word
  mask : Word
  deriving DecidableEq, Repr

/-- Does the word select the row? -/
def OpcodeRow.selects (r : OpcodeRow) (w : Word) : Bool := w &&& r.mask == r.pattern

/-- The row of R86 an instruction belongs to. -/
def rowOf : Instr → OpcodeRow
  | .cls => ⟨"CLS", 0x00E0#16, 0xFFFF#16⟩
  | .ret => ⟨"RET", 0x00EE#16, 0xFFFF#16⟩
  | .jp _ => ⟨"JP_addr", 0x1000#16, 0xF000#16⟩
  | .call _ => ⟨"CALL_addr", 0x2000#16, 0xF000#16⟩
  | .seImm _ _ => ⟨"SE_Vx__kk", 0x3000#16, 0xF000#16⟩
  | .sneImm _ _ => ⟨"SNE_Vx__kk", 0x4000#16, 0xF000#16⟩
  | .seReg _ _ => ⟨"SE_Vx__Vy", 0x5000#16, 0xF000#16⟩
  | .ldImm _ _ => ⟨"LD_Vx__kk", 0x6000#16, 0xF000#16⟩
  | .addImm _ _ => ⟨"ADD_Vx__kk", 0x7000#16, 0xF000#16⟩
  | .ldReg _ _ => ⟨"LD_Vx__Vy", 0x8000#16, 0xF00F#16⟩
  | .orReg _ _ => ⟨"OR_Vx__Vy", 0x8001#16, 0xF00F#16⟩
  | .andReg _ _ => ⟨"AND_Vx__Vy", 0x8002#16, 0xF00F#16⟩
  | .xorReg _ _ => ⟨"XOR_Vx__Vy", 0x8003#16, 0xF00F#16⟩
  | .addReg _ _ => ⟨"ADD_Vx__Vy", 0x8004#16, 0xF00F#16⟩
  | .subReg _ _ => ⟨"SUB_Vx__Vy", 0x8005#16, 0xF00F#16⟩
  | .shr _ => ⟨"SHR_Vx", 0x8006#16, 0xF00F#16⟩
  | .subnReg _ _ => ⟨"SUBN_Vx__Vy", 0x8007#16, 0xF00F#16⟩
  | .shl _ => ⟨"SHL_Vx", 0x800E#16, 0xF00F#16⟩
  | .sneReg _ _ => ⟨"SNE_Vx__Vy", 0x9000#16, 0xF000#16⟩
  | .ldI _ => ⟨"LD_I__addr", 0xA000#16, 0xF000#16⟩
  | .drw _ _ _ => ⟨"DRW_Vx__Vy__n", 0xD000#16, 0xF000#16⟩
  | .ldVxDt _ => ⟨"LD_Vx__DT", 0xF007#16, 0xF0FF#16⟩
  | .ldDtVx _ => ⟨"LD_DT__Vx", 0xF015#16, 0xF0FF#16⟩
  | .ldStVx _ => ⟨"LD_ST__Vx", 0xF018#16, 0xF0FF#16⟩
  | .addI _ => ⟨"ADD_I__Vx", 0xF01E#16, 0xF0FF#16⟩
  | .ldF _ => ⟨"LD_F__Vx", 0xF029#16, 0xF0FF#16⟩
  | .storeRegs _ => ⟨"LD__I___Vx", 0xF055#16, 0xF0FF#16⟩
  | .loadRegs _ => ⟨"LD_Vx___I", 0xF065#16, 0xF0FF#16⟩

/-- One instruction of each row, in the table's order (which operands it has does not matter). -/
def oneOfEach : List Instr :=
  [.cls, .ret, .jp 0, .call 0, .seImm 0 0, .sneImm 0 0, .seReg 0 0, .ldImm 0 0, .addImm 0 0,
    .ldReg 0 0, .orReg 0 0, .andReg 0 0, .xorReg 0 0, .addReg 0 0, .subReg 0 0, .shr 0] ++
  [.subnReg 0 0, .shl 0, .sneReg 0 0, .ldI 0, .drw 0 0 0, .ldVxDt 0, .ldDtVx 0, .ldStVx 0,
    .addI 0, .ldF 0, .storeRegs 0, .loadRegs 0]

/-- The 28 rows of R86. -/
def opcodeTable : List OpcodeRow := oneOfEach.map rowOf

/-- Is the word one of the 43378 legal ones (R86, R95)? -/
def legalWord (w : Word) : Bool := opcodeTable.any (·.selects w)

/-- The word with the bits that carry no meaning cleared: nibble d of families 5 and 9 (R90),
nibble c of the two shifts (R83). -/
def canonicalWord (w : Word) : Word :=
  if nibbleA w = 0x5#4 ∨ nibbleA w = 0x9#4 then w &&& 0xFFF0#16
  else if nibbleA w = 0x8#4 ∧ (nibbleD w = 0x6#4 ∨ nibbleD w = 0xE#4) then w &&& 0xFF0F#16
  else w

/-! ### The host's reading of the opcode table -/

/-- The instruction word whose bits are `w`, bit 0 the least significant of the word; bits at
`nbits` and above are 0. -/
def tableWord (nbits w : Nat) : Word := BitVec.ofNat 16 (w % 2 ^ nbits)

/-- The instruction the decoder reads from a word of the opcode table laid out as memory holds it. -/
def decodeTableWord (nbits w : Nat) : Option Instr :=
  (decodeBytes (wordBytes (tableWord nbits w))).toOption.map Prod.fst

end Sys2Proof
end

