-- ==== Sys2Proof/Machine/Memory.lean ====
section
/-! DEFINITION. The one address space `MEM` (spec/20_memory.md R50, R59): 4096 bytes of plain
storage, kept as a list of cells in one canonical form. An unlisted byte reads as 0x00, the value
RESET gives it (spec/10_state.md R40). -/
namespace Sys2Proof.Machine

/-- The cells that differ from 0x00, by rising address. -/
abbrev Memory := List Host.Cell

/-- What a byte that no cell lists reads as: "memory zeroed" (R40, R260). -/
def unlistedByte : Byte := 0x00#8

/-- `MEM[a]`: the last byte written at `a`, or the reset value (R59, R61). -/
def Memory.read : Memory → Nat → Byte
  | [], _ => unlistedByte
  | (b, u) :: m, a => if a = b then u else Memory.read m a

/-- Place byte `v` at address `a` of a list sorted by address, listing no byte that reads as
unlisted. -/
def Memory.put (a : Nat) (v : Byte) : Memory → Memory
  | [] => if v = unlistedByte then [] else [(a, v)]
  | (b, u) :: m =>
    if a < b then
      if v = unlistedByte then (b, u) :: m else (a, v) :: (b, u) :: m
    else if a = b then
      if v = unlistedByte then m else (a, v) :: m
    else (b, u) :: Memory.put a v m

/-- `MEM[a] <- v`. There is no byte at 4096 or above: the instructions check their whole range
before the first write (R57, R60), and a write here is then none (notes/assumptions/12.md). -/
def Memory.write (m : Memory) (a : Nat) (v : Byte) : Memory :=
  if a < memSize then m.put a v else m

/-- Write bytes at ascending addresses from `a` (R61). -/
def Memory.writeBytes (m : Memory) (a : Nat) : List Byte → Memory
  | [] => m
  | b :: bs => (m.write a b).writeBytes (a + 1) bs

/-- Read `n` bytes at ascending addresses from `a` (R61). -/
def Memory.readBytes (m : Memory) (a : Nat) : Nat → List Byte
  | 0 => []
  | n + 1 => m.read a :: m.readBytes (a + 1) n

/-- The canonical form from address `lo` on: addresses strictly rising and inside memory, no byte
listed that reads as unlisted. -/
def Memory.wfFrom : Nat → Memory → Bool
  | _, [] => true
  | lo, (a, v) :: m => lo ≤ a && a < memSize && v != unlistedByte && Memory.wfFrom (a + 1) m

/-- The canonical form. -/
def Memory.wf (m : Memory) : Bool := m.wfFrom 0

/-- Memory right after RESET: zero, and the font at FONT_BASE when FONT_DATA is given (R40). -/
def Memory.atReset (c : Config) : Memory :=
  match c.fontData with
  | none => []
  | some glyphs => Memory.writeBytes [] c.fontBase.val glyphs.toList

end Sys2Proof.Machine
end

