-- ==== Sys2Proof/Machine/State.lean ====
section
/-! DEFINITION. The architectural state (spec/10_state.md), all of it, the record a fault latches
(spec/60_exceptions.md R211), the outcomes' reasons, and the state after RESET (R40). -/
namespace Sys2Proof.Machine

/-- The field `sub` of a bounds error (R211): which access was out of range. -/
inductive AccessKind where
  /-- The fetch phase of a STEP (R55). -/
  | fetch
  /-- A byte read by DRW or LD Vx,[I] (R57). -/
  | read
  /-- A byte written by LD [I],Vx (R57). -/
  | write
  /-- A HOST_WRITE (R232). -/
  | hostWrite
  deriving DecidableEq, Repr

/-- What raised a fault, with the fields of the record that belong to that kind (R211). -/
inductive FaultCause where
  /-- `DecodeError`: the offending word (R213). -/
  | decodeError (word : Word)
  /-- `BoundsError`: the access and its lowest out-of-range address (R214). -/
  | boundsError (sub : AccessKind) (addr : Nat)
  /-- `StackOverflow` (R216). -/
  | stackOverflow
  /-- `StackUnderflow` (R217). -/
  | stackUnderflow
  deriving DecidableEq, Repr

/-- The fault record of R211; `pc` is the address of the faulting instruction. -/
structure FaultRecord where
  cause : FaultCause
  pc : Word
  deriving DecidableEq, Repr

/-- Why `step` stops with a fault. -/
inductive Fault where
  /-- Raised by `step` alone, in a state whose FAULT latch is set: STEP is not enabled there, "the
  core has no step" (R219, R231), and the record is the one latched. Raising a fault is not this
  outcome but a next state with the latch set (R218; notes/assumptions/1.md). Safe: the hardware
  takes no STEP there either. -/
  | stopped (record : FaultRecord)
  deriving DecidableEq, Repr

/-- Why an instruction has no meaning. -/
inductive Refusal where
  /-- Raised by `exec` for an instruction whose arm has no meaning yet. Safe: nothing is said of
  what follows. No arm of this model raises it. -/
  | notModelled (mnemonic : String)
  deriving DecidableEq, Repr

/-- The display plane: 32 words of 64 bits, pixel (x, y) being bit x of word y, so that the words in
order are the row-major plane of index y·64 + x (R33, R189; notes/assumptions/11.md). -/
abbrev Plane := Vector (BitVec 64) 32

/-- The plane with every pixel dark (R40, R181). -/
def darkPlane : Plane := Vector.replicate 32 0#64

/-- The state of the machine (R37, R41). -/
structure State where
  /-- The configuration, no state of the core (R39): fixed at construction, read by `LD F,Vx`,
  RESET and the self-jump report, written by nothing. -/
  cfg : Config
  /-- V0..VF (R20); VF is also the flag register (R22). -/
  v : Vector Byte 16
  /-- I, the index register (R24). -/
  i : Word
  /-- PC, the address of the next instruction (R25). -/
  pc : Word
  /-- STACK[0..15] (R28): entries at SP and above are dead and keep their last value (R29). -/
  stack : Vector Word 16
  /-- SP, how many entries are in use, 0..16 (R28). -/
  sp : Fin 17
  /-- DT, the delay timer (R31). -/
  dt : Byte
  /-- ST, the sound timer (R32). -/
  st : Byte
  /-- FB, the display plane (R33). -/
  fb : Plane
  /-- REDRAW: the plane changed since the last RENDER (R34). -/
  redraw : Bool
  /-- MEM (R35). -/
  mem : Memory
  /-- FAULT, the latch (R36). -/
  fault : Option FaultRecord
  deriving DecidableEq, Repr

/-- The state after RESET of a machine with configuration `c` (R40, R260). -/
def State.resetWith (c : Config) : State where
  cfg := c
  v := Vector.replicate 16 0x00#8
  i := 0x0000#16
  pc := 0x0200#16
  stack := Vector.replicate 16 0x0000#16
  sp := 0
  dt := 0x00#8
  st := 0x00#8
  fb := darkPlane
  redraw := false
  mem := Memory.atReset c
  fault := none

/-- The state after RESET of the machine with R8's default configuration. -/
def State.reset : State := State.resetWith Config.standard

end Sys2Proof.Machine
end

