-- ==== Sys2Proof/Machine/Ops.lean ====
section
/-! DEFINITION. The named operations over registers, stack, memory and display, taking a fault, and
fetching (spec/00_scope.md R12, spec/10_state.md R30, spec/20_memory.md R54 to R60,
spec/60_exceptions.md R211 to R218). -/
namespace Sys2Proof.Machine

/-! ### Registers -/

/-- `V[x]` (R20). -/
def State.reg (s : State) (x : Reg) : Byte := s.v[x.toNat]'(x.isLt)

/-- `V[x] <- b` (R20). -/
def State.setReg (s : State) (x : Reg) (b : Byte) : State :=
  { s with v := s.v.set x.toNat b x.isLt }

/-- The number of the flag register VF (R22). -/
def regVF : Reg := 0xF#4

/-- `I <- a` (R24). -/
def State.setI (s : State) (a : Word) : State := { s with i := a }

/-- `PC <- a` (R12). -/
def State.setPc (s : State) (a : Word) : State := { s with pc := a }

/-- PC past the instruction: fetch "advances `PC` by 2" (R25, R54). -/
def State.advance (s : State) : State := s.setPc (s.pc + 2#16)

/-- A conditional skip: PC past the instruction, and past the next one if `c` holds (R26). -/
def State.skipIf (s : State) (c : Bool) : State := if c then s.advance.advance else s.advance

/-- `DT <- b` (R31). -/
def State.setDt (s : State) (b : Byte) : State := { s with dt := b }

/-- `ST <- b` (R32). -/
def State.setSt (s : State) (b : Byte) : State := { s with st := b }

/-- `REDRAW <- 1` if `c` holds, else REDRAW as it was (R34). -/
def State.markRedraw (s : State) (c : Bool) : State := { s with redraw := s.redraw || c }

/-- The display plane replaced (R33). -/
def State.setFb (s : State) (plane : Plane) : State := { s with fb := plane }

/-! ### Taking a fault -/

/-- `raise` (R12, R218), from the state at the start of the STEP or HOST_WRITE: every change is
discarded, and FAULT holds the record with PC = pc0. There is no return from a fault (R224); only
RESET clears the latch (R219). -/
def State.raise (s : State) (c : FaultCause) : State := { s with fault := some ⟨c, s.pc⟩ }

/-- The end of a STEP begun in `s` whose execute phase answered `r`: its state, or the fault. -/
def State.conclude (s : State) : Except FaultCause State → Host.Outcome State Fault Refusal
  | .ok t => .next t
  | .error c => .next (s.raise c)

/-- The range check of R57 and R60, made before any effect: `count` bytes from `base`, with no
reduction of the addresses; the address recorded is the lowest out-of-range one (R55, R214). -/
def rangeFault (sub : AccessKind) (base count : Nat) : Option FaultCause :=
  if 1 ≤ count ∧ base + count > memSize then some (.boundsError sub (max base memSize)) else none

/-- An effect on memory's bytes `base` to `base + count − 1`, or the bounds error (R60). -/
def checkRange (sub : AccessKind) (base count : Nat) (t : State) : Except FaultCause State :=
  match rangeFault sub base count with
  | some c => .error c
  | none => .ok t

/-! ### The call stack -/

/-- `push(a)` (R30). -/
def State.push (s : State) (a : Word) : Except FaultCause State :=
  if h : s.sp.val < 16 then
    .ok { s with stack := s.stack.set s.sp.val a h, sp := ⟨s.sp.val + 1, by omega⟩ }
  else .error .stackOverflow

/-- `pop()`, the popped entry written to PC as RET does (R30, R111); the entry stays in the array
(R29). -/
def State.popToPc (s : State) : Except FaultCause State :=
  if h : 0 < s.sp.val then
    .ok { s with
      pc := s.stack[s.sp.val - 1]'(by have := s.sp.isLt; omega)
      sp := ⟨s.sp.val - 1, by have := s.sp.isLt; omega⟩ }
  else .error .stackUnderflow

/-! ### Memory blocks -/

/-- `MEM[a] <- b` for an address in range (R12). -/
def State.writeMem (s : State) (a : Nat) (b : Byte) : State := { s with mem := s.mem.write a b }

/-- Store V0 .. V(count−1) at `base`, ascending (R164). -/
def State.storeBlock (s : State) (base : Nat) : Nat → State
  | 0 => s
  | k + 1 =>
    let t := s.storeBlock base k
    t.writeMem (base + k) (t.reg (BitVec.ofNat 4 k))

/-- Load V0 .. V(count−1) from `base`, ascending (R165). -/
def State.loadBlock (s : State) (base : Nat) : Nat → State
  | 0 => s
  | k + 1 =>
    let t := s.loadBlock base k
    t.setReg (BitVec.ofNat 4 k) (t.mem.read (base + k))

/-! ### The display plane -/

/-- `FB[x,y]` (R33): false outside the display, where there is no pixel. -/
def pixel (plane : Plane) (x y : Nat) : Bool :=
  if h : y < 32 then plane[y].getLsbD x else false

/-- `FB[x,y] <- FB[x,y] xor 1` (R183). -/
def togglePixel (plane : Plane) (x y : Nat) : Plane :=
  if h : y < 32 then plane.set y (plane[y] ^^^ BitVec.twoPow 64 x) else plane

/-- What a draw has done so far: the plane, a pixel went from 1 to 0, a pixel changed (R183). -/
structure Drawing where
  plane : Plane
  collision : Bool
  changed : Bool
  deriving DecidableEq, Repr

/-- One sprite bit at column `xx`, row `yy` (R183, R186): clipped beyond column 63 (R185), and a 0
bit changes nothing. -/
def drawPixel (d : Drawing) (xx yy : Nat) (b : Bool) : Drawing :=
  if xx > 63 then d
  else if b then
    { plane := togglePixel d.plane xx yy
      collision := d.collision || pixel d.plane xx yy
      changed := true }
  else d

/-- The first `c` columns of a sprite row, left to right: bit 7 is the leftmost pixel (R182). -/
def drawColumns (d : Drawing) (x0 yy : Nat) (row : Byte) : Nat → Drawing
  | 0 => d
  | c + 1 => drawPixel (drawColumns d x0 yy row c) (x0 + c) yy (row.getLsbD (7 - c))

/-- The sprite's rows from display row `yy` down: the first row below the display ends the draw
(R183, R185). -/
def drawRows (d : Drawing) (x0 yy : Nat) : List Byte → Drawing
  | [] => d
  | row :: rows =>
    if yy > 31 then d else drawRows (drawColumns d x0 yy row 8) x0 (yy + 1) rows

/-! ### Fetch -/

/-- Fetch (R54): the big-endian word at PC, or `BoundsError(fetch)` if PC + 1 > 4095 (R55). PC
itself is advanced by the instruction's meaning (`State.advance`; notes/assumptions/5.md). -/
def State.fetch (s : State) : Except FaultCause Word :=
  match rangeFault .fetch s.pc.toNat 2 with
  | some c => .error c
  | none => .ok (wordOfBytes (s.mem.read s.pc.toNat) (s.mem.read (s.pc.toNat + 1)))

/-- Lay a word at PC and PC + 1 as memory holds it (R53). -/
def State.placeWord (s : State) (w : Word) : State :=
  { s with mem := s.mem.writeBytes s.pc.toNat (wordBytes w) }

/-! ### The fields of a fault record (R211, R212) -/

/-- The four kinds of fault (R16, R210). -/
inductive FaultKind where
  | decodeError
  | boundsError
  | stackOverflow
  | stackUnderflow
  deriving DecidableEq, Repr

/-- The field `kind`. -/
def FaultRecord.kind (r : FaultRecord) : FaultKind :=
  match r.cause with
  | .decodeError _ => .decodeError
  | .boundsError _ _ => .boundsError
  | .stackOverflow => .stackOverflow
  | .stackUnderflow => .stackUnderflow

/-- The field `code`: the numeric cause codes of R212. -/
def FaultRecord.code (r : FaultRecord) : Nat :=
  match r.kind with
  | .decodeError => 1
  | .boundsError => 2
  | .stackOverflow => 3
  | .stackUnderflow => 4

/-- The field `sub`, for a bounds error only. -/
def FaultRecord.sub (r : FaultRecord) : Option AccessKind :=
  match r.cause with
  | .boundsError k _ => some k
  | .decodeError _ | .stackOverflow | .stackUnderflow => none

/-- The field `word`, for a decode error only. -/
def FaultRecord.word (r : FaultRecord) : Option Word :=
  match r.cause with
  | .decodeError w => some w
  | .boundsError _ _ | .stackOverflow | .stackUnderflow => none

/-- The field `addr`, for a bounds error only. -/
def FaultRecord.addr (r : FaultRecord) : Option Nat :=
  match r.cause with
  | .boundsError _ a => some a
  | .decodeError _ | .stackOverflow | .stackUnderflow => none

end Sys2Proof.Machine
end

