-- ==== Sys2Proof/Machine/Flags.lean ====
section
/-! DEFINITION. The values VF receives (spec/10_state.md R23) and the common order of the family-8
operations (spec/41_alu.md R133): operands first, then the result, then the flag. -/
namespace Sys2Proof.Machine

/-- A flag as the byte VF holds: 0 or 1, zero-extended (R23). -/
def flagByte (f : Bool) : Byte := if f then 0x01#8 else 0x00#8

/-- Carry of an addition: 1 if a + b > 255 (R138). -/
def carryOf (a b : Byte) : Bool := decide (a.toNat + b.toNat > 255)

/-- The flag of a subtraction a − b: 1 if a > b, strictly (R139, R141). -/
def greaterOf (a b : Byte) : Bool := decide (a.toNat > b.toNat)

/-- The bit a right shift drops: bit 0 (R140). -/
def lowBitOf (a : Byte) : Bool := a.getLsbD 0

/-- The bit a left shift drops: bit 7 (R142). -/
def highBitOf (a : Byte) : Bool := a.getLsbD 7

/-- `VF <- f` (R22, R23). -/
def State.setFlag (s : State) (f : Bool) : State := s.setReg regVF (flagByte f)

/-- An operation without a flag: V[x] <- result, PC past the instruction (R130, R133). -/
def State.plainResult (s : State) (x : Reg) (result : Byte) : State :=
  (s.setReg x result).advance

/-- An operation with a flag: V[x] <- result, then VF <- flag, the last register write, which wins
when x is VF (R133, R145). -/
def State.flaggedResult (s : State) (x : Reg) (result : Byte) (flag : Bool) : State :=
  ((s.setReg x result).setFlag flag).advance

end Sys2Proof.Machine
end

