-- ==== Sys2Proof/Machine/Alu.lean ====
section
/-! DEFINITION. Register loads, additions and family 8 (spec/41_alu.md). Arithmetic on registers is
modulo 256 (R130, R143). -/
namespace Sys2Proof.Machine

/-- LD Vx, kk (R131). -/
def execLdImm (x : Reg) (kk : Byte) (s : State) : Host.Outcome State Fault Refusal :=
  .next (s.plainResult x kk)

/-- ADD Vx, kk (R132): no carry is recorded. -/
def execAddImm (x : Reg) (kk : Byte) (s : State) : Host.Outcome State Fault Refusal :=
  .next (s.plainResult x (s.reg x + kk))

/-- LD Vx, Vy (R134). -/
def execLdReg (x y : Reg) (s : State) : Host.Outcome State Fault Refusal :=
  .next (s.plainResult x (s.reg y))

/-- OR Vx, Vy (R135). -/
def execOrReg (x y : Reg) (s : State) : Host.Outcome State Fault Refusal :=
  .next (s.plainResult x (s.reg x ||| s.reg y))

/-- AND Vx, Vy (R136). -/
def execAndReg (x y : Reg) (s : State) : Host.Outcome State Fault Refusal :=
  .next (s.plainResult x (s.reg x &&& s.reg y))

/-- XOR Vx, Vy (R137). -/
def execXorReg (x y : Reg) (s : State) : Host.Outcome State Fault Refusal :=
  .next (s.plainResult x (s.reg x ^^^ s.reg y))

/-- ADD Vx, Vy (R138). -/
def execAddReg (x y : Reg) (s : State) : Host.Outcome State Fault Refusal :=
  .next (s.flaggedResult x (s.reg x + s.reg y) (carryOf (s.reg x) (s.reg y)))

/-- SUB Vx, Vy (R139). -/
def execSubReg (x y : Reg) (s : State) : Host.Outcome State Fault Refusal :=
  .next (s.flaggedResult x (s.reg x - s.reg y) (greaterOf (s.reg x) (s.reg y)))

/-- SHR Vx (R140): Vx itself is shifted, Vy is not read. -/
def execShr (x : Reg) (s : State) : Host.Outcome State Fault Refusal :=
  .next (s.flaggedResult x (s.reg x >>> 1) (lowBitOf (s.reg x)))

/-- SUBN Vx, Vy (R141): Vy − Vx. -/
def execSubnReg (x y : Reg) (s : State) : Host.Outcome State Fault Refusal :=
  .next (s.flaggedResult x (s.reg y - s.reg x) (greaterOf (s.reg y) (s.reg x)))

/-- SHL Vx (R142): Vx itself is shifted, Vy is not read. -/
def execShl (x : Reg) (s : State) : Host.Outcome State Fault Refusal :=
  .next (s.flaggedResult x (s.reg x <<< 1) (highBitOf (s.reg x)))

end Sys2Proof.Machine
end

