-- ==== Sys2Proof/Machine/Operands.lean ====
section
/-! DEFINITION. The operand forms of spec/30_encoding.md R83, R84 and spec/42_index_memory.md R160:
an address field, a register read as a number, the base of a memory block, a glyph's address, and
the sprite of a draw. -/
namespace Sys2Proof.Machine

/-- An address field written to PC or I: zero-extended to 16 bits (R84, R112, R161). -/
def addrWord (addr : Addr12) : Word := addr.setWidth 16

/-- A register zero-extended to 16 bits (R162). -/
def regWord (s : State) (x : Reg) : Word := (s.reg x).setWidth 16

/-- The base of a memory block: I as a number, not reduced (R57, R160). -/
def blockBase (s : State) : Nat := s.i.toNat

/-- The length of the block that LD [I],Vx and LD Vx,[I] move: registers 0 to x (R58). -/
def blockLength (x : Reg) : Nat := x.toNat + 1

/-- The address of glyph V[x]: (FONT_BASE + V[x]·5) mod 65536, all 8 bits of V[x] (R163). -/
def glyphAddr (s : State) (x : Reg) : Word :=
  BitVec.ofNat 16 (s.cfg.fontBase.val + (s.reg x).toNat * glyphBytes)

/-- The n sprite bytes at I, row 0 first (R182). -/
def spriteRows (s : State) (n : Nibble) : List Byte := s.mem.readBytes (blockBase s) n.toNat

/-- The address after the executing instruction, which CALL pushes (R113). -/
def returnAddr (s : State) : Word := s.pc + 2#16

end Sys2Proof.Machine
end

