-- ==== Sys2Proof/Machine/Display.lean ====
section
/-! DEFINITION. The display instructions (spec/43_display.md). -/
namespace Sys2Proof.Machine

/-- CLS (R181): REDRAW is set whatever the plane held. -/
def execCls (s : State) : Host.Outcome State Fault Refusal :=
  .next ((s.setFb darkPlane).markRedraw true).advance

/-- The draw of R183 on the plane of `s`: the origin is (V[x], V[y]) as it stands (R182), read
before VF is written (R184). -/
def drawSprite (x y : Reg) (n : Nibble) (s : State) : Drawing :=
  drawRows ⟨s.fb, false, false⟩ (s.reg x).toNat (s.reg y).toNat (spriteRows s n)

/-- DRW Vx, Vy, n (R183): the whole sprite's range is checked before anything else; VF is always
written; REDRAW is set iff a pixel changed. -/
def execDrw (x y : Reg) (n : Nibble) (s : State) : Host.Outcome State Fault Refusal :=
  s.conclude (checkRange .read (blockBase s) n.toNat
    ((((s.setFb (drawSprite x y n s).plane).setFlag (drawSprite x y n s).collision).markRedraw
      (drawSprite x y n s).changed).advance))

end Sys2Proof.Machine
end

