-- ==== Sys2Proof/Machine/Flow.lean ====
section
/-! DEFINITION. The control-flow instructions (spec/40_flow.md). Each meaning takes the state at the
start of the STEP, whose PC is pc0, and answers the state after it (notes/assumptions/5.md). -/
namespace Sys2Proof.Machine

/-- RET (R111). -/
def execRet (s : State) : Host.Outcome State Fault Refusal := s.conclude s.popToPc

/-- JP addr (R112). The optional self-jump report is `stepResult`'s (R220). -/
def execJp (addr : Addr12) (s : State) : Host.Outcome State Fault Refusal :=
  .next (s.setPc (addrWord addr))

/-- CALL addr (R113). -/
def execCall (addr : Addr12) (s : State) : Host.Outcome State Fault Refusal :=
  s.conclude ((s.push (returnAddr s)).map (·.setPc (addrWord addr)))

/-- SE Vx, kk (R114). -/
def execSeImm (x : Reg) (kk : Byte) (s : State) : Host.Outcome State Fault Refusal :=
  .next (s.skipIf (s.reg x == kk))

/-- SNE Vx, kk (R115). -/
def execSneImm (x : Reg) (kk : Byte) (s : State) : Host.Outcome State Fault Refusal :=
  .next (s.skipIf (s.reg x != kk))

/-- SE Vx, Vy (R116). -/
def execSeReg (x y : Reg) (s : State) : Host.Outcome State Fault Refusal :=
  .next (s.skipIf (s.reg x == s.reg y))

/-- SNE Vx, Vy (R117). -/
def execSneReg (x y : Reg) (s : State) : Host.Outcome State Fault Refusal :=
  .next (s.skipIf (s.reg x != s.reg y))

end Sys2Proof.Machine
end

