-- ==== Sys2Proof/Machine/Index.lean ====
section
/-! DEFINITION. The index-register, font and memory-block instructions (spec/42_index_memory.md).
No instruction masks I, and no memory access changes it (R24, R160). -/
namespace Sys2Proof.Machine

/-- LD I, addr (R161). -/
def execLdI (addr : Addr12) (s : State) : Host.Outcome State Fault Refusal :=
  .next (s.setI (addrWord addr)).advance

/-- ADD I, Vx (R162): modulo 65536, VF untouched. -/
def execAddI (x : Reg) (s : State) : Host.Outcome State Fault Refusal :=
  .next (s.setI (s.i + regWord s x)).advance

/-- LD F, Vx (R163). -/
def execLdF (x : Reg) (s : State) : Host.Outcome State Fault Refusal :=
  .next (s.setI (glyphAddr s x)).advance

/-- LD [I], Vx (R164): the whole range is checked before the first byte is written. -/
def execStoreRegs (x : Reg) (s : State) : Host.Outcome State Fault Refusal :=
  s.conclude (checkRange .write (blockBase s) (blockLength x)
    (s.storeBlock (blockBase s) (blockLength x)).advance)

/-- LD Vx, [I] (R165): the whole range is checked before the first register is loaded. -/
def execLoadRegs (x : Reg) (s : State) : Host.Outcome State Fault Refusal :=
  s.conclude (checkRange .read (blockBase s) (blockLength x)
    (s.loadBlock (blockBase s) (blockLength x)).advance)

end Sys2Proof.Machine
end

