-- ==== Sys2Proof/Machine/Step.lean ====
section
/-! DEFINITION. One STEP (spec/60_exceptions.md R231): fetch, decode, execute, in that order, the
first failing phase deciding (R221). -/
namespace Sys2Proof.Machine

/-- STEP. With the FAULT latch set it is not enabled (R219, R231). -/
def step (s : State) : Host.Outcome State Fault Refusal :=
  match s.fault with
  | some record => .fault (.stopped record)
  | none =>
    match s.fetch with
    | .error c => .next (s.raise c)
    | .ok w =>
      match decodeWord w with
      | .error _ => .next (s.raise (.decodeError w))
      | .ok i => exec i s

/-- `s` with a word of the opcode table laid where `step` fetches, at PC and PC + 1. -/
def State.withFetchWord (s : State) (nbits w : Nat) : State := s.placeWord (tableWord nbits w)

end Sys2Proof.Machine
end

