-- ==== Sys2Proof/Machine/HostInterface.lean ====
section
/-! DEFINITION. The operations by which the host drives the core (spec/60_exceptions.md R230 to
R237): RESET, HOST_WRITE, TICK, RENDER, INSPECT, the result a STEP reports, and the order in which
the host may call them (R237, R242, spec/70_reset_and_hazards.md R262). `step` is STEP alone: no
TICK falls inside one (R231), and any number may fall between two (R234). -/
namespace Sys2Proof.Machine

/-- RESET (R230): every piece of state takes its reset value, FAULT included; the configuration is
fixed (R8). -/
def State.hostReset (s : State) : State := State.resetWith s.cfg

/-- HOST_WRITE(a, v) (R232). -/
def State.hostWrite (s : State) (a : Nat) (v : Byte) : State :=
  match rangeFault .hostWrite a 1 with
  | some c => s.raise c
  | none => s.writeMem a v

/-- One timer's countdown: "while > 0, otherwise held at 0; never negative" (R233). -/
def countDown (b : Byte) : Byte := if b = 0x00#8 then b else b - 1#8

/-- TICK (R233): both timers. -/
def State.tick (s : State) : State := (s.setDt (countDown s.dt)).setSt (countDown s.st)

/-- What RENDER returns (R235). -/
structure Snapshot where
  plane : Plane
  delay : Byte
  deriving DecidableEq, Repr

/-- RENDER (R235): the plane and DT, then REDRAW <- 0. -/
def State.render (s : State) : Snapshot × State := (⟨s.fb, s.dt⟩, { s with redraw := false })

/-- What INSPECT can ask for (R236). -/
inductive Query where
  | memory (first count : Nat)
  | register (x : Reg)
  | pc
  | index
  | stackPointer
  | stackEntry (k : Fin 16)
  | delayTimer
  | soundTimer
  | plane
  | redraw
  | fault
  deriving DecidableEq, Repr

/-- What INSPECT answers. -/
inductive Answer where
  | bytes (content : List Byte)
  | byte (content : Byte)
  | word (content : Word)
  | count (content : Nat)
  | picture (content : Plane)
  | flag (content : Bool)
  | latch (content : Option FaultRecord)
  deriving DecidableEq, Repr

/-- INSPECT (R236): it changes nothing. A memory range is answered as far as memory reaches
(notes/assumptions/14.md). -/
def State.inspect (s : State) (q : Query) : Answer :=
  match q with
  | .memory first count => .bytes (s.mem.readBytes first (min count (memSize - first)))
  | .register x => .byte (s.reg x)
  | .pc => .word s.pc
  | .index => .word s.i
  | .stackPointer => .count s.sp.val
  | .stackEntry k => .word s.stack[k]
  | .delayTimer => .byte s.dt
  | .soundTimer => .byte s.st
  | .plane => .picture s.fb
  | .redraw => .flag s.redraw
  | .fault => .latch s.fault

/-! ### What a STEP reports -/

/-- The result of a STEP (R231), and that there is none where STEP is not enabled (R219). -/
inductive StepResult where
  | next
  | selfLoopHalt (pc0 : Word)
  | fault (record : FaultRecord)
  | notEnabled
  deriving DecidableEq, Repr

/-- PC points at a `JP` to that same address (R112, R268). -/
def State.atSelfJump (s : State) : Bool :=
  match s.fetch with
  | .error _ => false
  | .ok w =>
    match decodeWord w with
    | .ok (.jp addr) => addrWord addr == s.pc
    | _ => false

/-- The report of the STEP from `s` (R220, R231): the self-jump report is made only when
HALT_ON_SELF_JUMP is on, and changes no state. -/
def stepResult (s : State) : StepResult :=
  match step s with
  | .next t =>
    match t.fault with
    | some record => .fault record
    | none => if s.cfg.haltOnSelfJump && s.atSelfJump then .selfLoopHalt s.pc else .next
  | .fault _ => .notEnabled
  | .refused _ => .notEnabled

/-! ### Loading a program -/

/-- HOST_WRITE of a byte sequence from address `a` upward, stopping at the first fault, as the host
must (R232, R237). -/
def State.hostWriteAll (s : State) (a : Nat) : List Byte → State
  | [] => s
  | b :: bs =>
    let t := s.hostWrite a b
    if t.fault.isSome then t else t.hostWriteAll (a + 1) bs

/-- The launch state of a program (R262, R264): RESET, then the loader's writes from 0x200. -/
def State.launch (c : Config) (rom : List Byte) : State :=
  (State.resetWith c).hostWriteAll programBase rom

/-! ### The order of the operations -/

/-- Before the first STEP after a RESET, when HOST_WRITE has a meaning, or after it (R232, R237). -/
inductive HostPhase where
  | loading
  | running
  deriving DecidableEq, Repr

/-- A machine in its host's hands. -/
structure Session where
  core : State
  phase : HostPhase
  deriving DecidableEq, Repr

/-- The host's moves (R6, R237); each is atomic (R61). -/
inductive HostMove where
  | reset
  | hostWrite (a : Nat) (v : Byte)
  | step
  | tick
  | render
  | inspect (q : Query)
  deriving DecidableEq, Repr

/-- After construction, which is the first RESET (R230). -/
def Session.start (c : Config) : Session := ⟨State.resetWith c, .loading⟩

/-- One move, or none where it is not enabled: RESET, TICK, RENDER and INSPECT always, STEP while
FAULT = none, HOST_WRITE before the first STEP while FAULT = none (R219, R237, R242). -/
def Session.move (m : HostMove) (x : Session) : Option Session :=
  match m with
  | .reset => some ⟨x.core.hostReset, .loading⟩
  | .hostWrite a v =>
    if x.phase = .loading ∧ x.core.fault = none then some ⟨x.core.hostWrite a v, .loading⟩ else none
  | .step =>
    match step x.core with
    | .next t => some ⟨t, .running⟩
    | .fault _ => none
    | .refused _ => none
  | .tick => some ⟨x.core.tick, x.phase⟩
  | .render => some ⟨x.core.render.2, x.phase⟩
  | .inspect _ => some x

/-- A schedule of moves, in the one total order in which they occur (R61). -/
def Session.run (x : Session) : List HostMove → Option Session
  | [] => some x
  | m :: ms => (x.move m).bind (·.run ms)

end Sys2Proof.Machine
end

