-- ==== Sys2Proof/Safety.lean ====
section
/-! DEFINITION. The terms claims use: frames, the invariant of reachable states, a safe step, a
finished run, and the display plane as a picture. -/
namespace Sys2Proof.Machine

/-! ### Frames -/

/-- What an instruction may write besides PC. A piece that is not named here is left as it was. -/
structure Writes where
  /-- The general registers written. -/
  regs : List Reg := []
  index : Bool := false
  stackPointer : Bool := false
  /-- The numbers of the stack entries written. -/
  stackEntries : List Nat := []
  delayTimer : Bool := false
  soundTimer : Bool := false
  plane : Bool := false
  redraw : Bool := false
  /-- The bytes stored: the first address. -/
  memFirst : Nat := 0
  /-- The bytes stored: how many. -/
  memCount : Nat := 0

/-- `t` is `s` but for PC and the pieces named by `w`: every other register, every other stack
entry, every other byte of memory, and always the configuration and the FAULT latch. -/
structure Frame (s t : State) (w : Writes) : Prop where
  regs : ∀ r : Reg, r ∉ w.regs → t.reg r = s.reg r
  index : w.index = false → t.i = s.i
  stackPointer : w.stackPointer = false → t.sp = s.sp
  stackEntries : ∀ k : Fin 16, k.val ∉ w.stackEntries → t.stack[k] = s.stack[k]
  delayTimer : w.delayTimer = false → t.dt = s.dt
  soundTimer : w.soundTimer = false → t.st = s.st
  plane : w.plane = false → t.fb = s.fb
  redraw : w.redraw = false → t.redraw = s.redraw
  memory : ∀ a : Nat, ¬ (w.memFirst ≤ a ∧ a < w.memFirst + w.memCount) →
    t.mem.read a = s.mem.read a
  cfg : t.cfg = s.cfg
  fault : t.fault = s.fault

/-- The instruction completes from `s`: a next state that `post` describes, with PC at `pc'` and
everything but the pieces named by `w` as before. -/
def CompletesWith (i : Instr) (s : State) (pc' : Word) (w : Writes) (post : State → Prop) : Prop :=
  ∃ t, exec i s = .next t ∧ t.pc = pc' ∧ post t ∧ Frame s t w

/-- The instruction faults from `s`: the latch holds the record, and nothing else changes (R218). -/
def FaultsWith (i : Instr) (s : State) (c : FaultCause) : Prop :=
  exec i s = .next { s with fault := some { cause := c, pc := s.pc } }

/-- What each instruction may write besides PC: the tables of R21 and R37, and R23's flag. CALL alone
writes a stack entry, the one at SP, and RET writes none (R29, R30). The bytes stored are those of
the block at I (R164). -/
def writesOf (i : Instr) (s : State) : Writes :=
  match i with
  | .cls => { plane := true, redraw := true }
  | .ret => { stackPointer := true }
  | .jp _ => {}
  | .call _ => { stackPointer := true, stackEntries := [s.sp.val] }
  | .seImm _ _ => {}
  | .sneImm _ _ => {}
  | .seReg _ _ => {}
  | .ldImm x _ => { regs := [x] }
  | .addImm x _ => { regs := [x] }
  | .ldReg x _ => { regs := [x] }
  | .orReg x _ => { regs := [x] }
  | .andReg x _ => { regs := [x] }
  | .xorReg x _ => { regs := [x] }
  | .addReg x _ => { regs := [x, 0xF#4] }
  | .subReg x _ => { regs := [x, 0xF#4] }
  | .shr x => { regs := [x, 0xF#4] }
  | .subnReg x _ => { regs := [x, 0xF#4] }
  | .shl x => { regs := [x, 0xF#4] }
  | .sneReg _ _ => {}
  | .ldI _ => { index := true }
  | .drw _ _ _ => { regs := [0xF#4], plane := true, redraw := true }
  | .ldVxDt x => { regs := [x] }
  | .ldDtVx _ => { delayTimer := true }
  | .ldStVx _ => { soundTimer := true }
  | .addI _ => { index := true }
  | .ldF _ => { index := true }
  | .storeRegs x => { memFirst := s.i.toNat, memCount := x.toNat + 1 }
  | .loadRegs x => { regs := (List.range (x.toNat + 1)).map (BitVec.ofNat 4) }

/-! ### What a program can observe -/

/-- The state without what no instruction can read: ST, REDRAW and the dead stack entries (R29, R32,
R34, R38). -/
def observable (s : State) : State :=
  { s with
    st := 0x00#8
    redraw := false
    stack := Vector.ofFn fun k : Fin 16 => if k.val < s.sp.val then s.stack[k] else 0x0000#16 }

/-- Two outcomes a program cannot tell apart: next states that agree on what it can observe, or the
same stop. -/
def SameOutcome (a b : Host.Outcome State Fault Refusal) : Prop :=
  (∃ t u, a = .next t ∧ b = .next u ∧ observable t = observable u) ∨
    (∃ r, a = .fault r ∧ b = .fault r)

/-! ### Reachable states -/

/-- What is true of a latched record (R211, R213, R214, R218): it names the PC, a decode error's word
is illegal, a bounds error's address is outside memory. -/
def recordOk (s : State) (r : FaultRecord) : Prop :=
  r.pc = s.pc ∧ (∀ w, r.word = some w → legalWord w = false) ∧ (∀ a, r.addr = some a → 4096 ≤ a)

/-- The invariant of every state the machine can reach from RESET (R27, R29, R37, R118): memory is in
its canonical form; PC is at most 4098; every stack entry is at most 4096 and every live one at
least 2; a latched record is as R211 says. -/
structure Inv (s : State) : Prop where
  memory : s.mem.wf = true
  pc : s.pc.toNat ≤ 4098
  stack : ∀ k : Fin 16, s.stack[k].toNat ≤ 4096
  live : ∀ k : Fin 16, k.val < s.sp.val → 2 ≤ s.stack[k].toNat
  latch : ∀ r, s.fault = some r → recordOk s r

/-! ### Safe and finished runs -/

/-- The STEP from `s` is enabled and raises no fault (R219). -/
def SafeStep (s : State) : Prop := ∃ t, step s = .next t ∧ t.fault = none

/-- The program has finished: no fault, and PC points at a `JP` to itself (R268). -/
def Finished (s : State) : Prop := s.fault = none ∧ s.atSelfJump = true

/-! ### Pictures -/

/-- Does the sprite of `DRW Vx,Vy,n` have a set bit at column `px`, row `py` of the display (R182,
R185)? Row r is the byte at I + r, bit 7 is the leftmost pixel, the origin is not reduced. -/
def spriteCovers (s : State) (x y : Reg) (n : Nibble) (px py : Nat) : Prop :=
  px < 64 ∧ py < 32 ∧ (s.reg x).toNat ≤ px ∧ px < (s.reg x).toNat + 8 ∧
    (s.reg y).toNat ≤ py ∧ py < (s.reg y).toNat + n.toNat ∧
    (s.mem.read (s.i.toNat + (py - (s.reg y).toNat))).getLsbD (7 - (px - (s.reg x).toNat)) = true

/-- Every address of the sprite is inside memory (R183). -/
def SpriteInMemory (s : State) (n : Nibble) : Prop := n.toNat = 0 ∨ s.i.toNat + n.toNat - 1 ≤ 4095

end Sys2Proof.Machine
end

