-- ==== Sys2Proof/Certificates/Slice0/Obligations.lean ====
section
/-! DEFINITION. The statements for the provers. Each docstring names the rules of spec/ it
formalises. An instruction's statement gives its encoding, its result for every state and operand
(so that it says where the instruction completes), and its frame (`CompletesWith`); where the
instruction can fault, the fault too (`FaultsWith`). Numbers are computed in Nat, as the spec's
pseudocode does (R9).

Where a clause rests on a point the spec decided itself rather than read in its source, the
docstring names that decision, D<n> of spec/92_eei_decisions.md (notes/assumptions/18.md). A
faulting STEP or HOST_WRITE changing nothing but the latch is D9 and D10 throughout. -/

open Sys2Proof Sys2Proof.Machine

/-! ### Reset -/

/-- R40, R260, R230: RESET gives every piece of state its value, for every configuration (I, the
display, REDRAW and FAULT by the spec's decision D19); a RESET later does the same, and that it
returns the host to loading is the model's choice (notes/assumptions/17.md). -/
def Obligations.ResetLeavesEveryPiece : Prop :=
  (∀ c : Config,
    (∀ x : Reg, (State.resetWith c).reg x = 0x00#8) ∧
    (State.resetWith c).i = 0x0000#16 ∧
    (State.resetWith c).pc = 0x0200#16 ∧
    (State.resetWith c).sp.val = 0 ∧
    (∀ k : Fin 16, (State.resetWith c).stack[k] = 0x0000#16) ∧
    (State.resetWith c).dt = 0x00#8 ∧
    (State.resetWith c).st = 0x00#8 ∧
    (∀ a : Nat, a < 4096 → ¬ (c.fontBase.val ≤ a ∧ a < c.fontBase.val + 80) →
      (State.resetWith c).mem.read a = 0x00#8) ∧
    (∀ k : Fin 80, (State.resetWith c).mem.read (c.fontBase.val + k.val) =
      match c.fontData with
      | none => 0x00#8
      | some glyphs => glyphs[k]) ∧
    (∀ px py : Nat, px < 64 → py < 32 → pixel (State.resetWith c).fb px py = false) ∧
    (State.resetWith c).redraw = false ∧
    (State.resetWith c).fault = none ∧
    (State.resetWith c).cfg = c ∧
    (State.resetWith c).fetch = .ok (wordOfBytes ((State.resetWith c).mem.read 0x200)
      ((State.resetWith c).mem.read 0x201))) ∧
  (∀ x : Session, x.move .reset = some ⟨State.resetWith x.core.cfg, .loading⟩)

/-- R261: the first STEP after RESET fetches the word at 0x200; with nothing loaded it raises
DecodeError(0x0000, 0x0200). -/
def Obligations.FirstStepAfterReset : Prop :=
  (∀ (c : Config) (m : Memory), ∃ w : Word,
    ({ State.resetWith c with mem := m } : State).fetch = .ok w ∧
    w.toNat = (m.read 0x200).toNat * 256 + (m.read 0x201).toNat) ∧
  (∀ c : Config, step (State.resetWith c) =
    .next { State.resetWith c with
      fault := some { cause := .decodeError 0x0000#16, pc := 0x0200#16 } })

/-! ### Fetch and decode -/

/-- R231: when the bytes at PC decode to an instruction, STEP is that instruction's execution, with
nothing around it (its meaning advances PC itself, the model's choice: notes/assumptions/5.md). -/
def Obligations.StepRunsDecodedInstruction : Prop :=
  ∀ (s : State) (i : Instr), s.fault = none → s.pc.toNat ≤ 4094 →
    decodeBytes [s.mem.read s.pc.toNat, s.mem.read (s.pc.toNat + 1)] = .ok (i, []) →
    i.wellFormed = true ∧ step s = exec i s

/-- R53, R54: fetch reads the two bytes at PC, the byte at the lower address as the high byte. -/
def Obligations.FetchIsBigEndian : Prop :=
  ∀ s : State, s.pc.toNat ≤ 4094 → ∃ w : Word, s.fetch = .ok w ∧
    w.toNat = (s.mem.read s.pc.toNat).toNat * 256 + (s.mem.read (s.pc.toNat + 1)).toNat

/-- R55: a fetch with PC + 1 > 4095 raises BoundsError(fetch, max(PC, 4096)) and changes no other
state (the spec's decision D9); the last address fetched from is 0xFFE. -/
def Obligations.FetchPastMemoryFaults : Prop :=
  (∀ s : State, s.fault = none → 4095 < s.pc.toNat + 1 → step s = .next { s with
    fault := some { cause := .boundsError .fetch (max s.pc.toNat 4096), pc := s.pc } }) ∧
  (∀ s : State, s.pc.toNat ≤ 0xFFE → ∃ w, s.fetch = .ok w)

/-- R213: an illegal word raises DecodeError with the word and the PC it was fetched at, in the
decode phase. The code is R212's (the spec's decision D11), the fields a decode error has are R211's
(D9, D11; their form notes/assumptions/13.md), and that nothing but FAULT changes is R218's (D9); the
outcome is a next state by the model's choice (notes/assumptions/1.md). -/
def Obligations.IllegalWordRaisesDecodeError : Prop :=
  ∀ (s : State) (w : Word), s.fault = none → s.fetch = .ok w → legalWord w = false →
    ∃ r : FaultRecord, step s = .next { s with fault := some r } ∧ r.kind = .decodeError ∧
      r.code = 1 ∧ r.word = some w ∧ r.pc = s.pc ∧ r.sub = none ∧ r.addr = none

/-- R95's rows (by the spec's decisions D2, D4, D6): the words the decoder refuses, and the reason it
names, are exactly those listed. The rule's counts are not stated. -/
def Obligations.IllegalWordsAreThoseListed : Prop :=
  ∀ w : Word,
    (decodeWord w = .error .family0 ↔
      w.toNat / 0x1000 = 0x0 ∧ w.toNat ≠ 0x00E0 ∧ w.toNat ≠ 0x00EE) ∧
    (decodeWord w = .error .family8 ↔
      w.toNat / 0x1000 = 0x8 ∧ w.toNat % 16 ∈ [0x8, 0x9, 0xA, 0xB, 0xC, 0xD, 0xF]) ∧
    (decodeWord w = .error .familyB ↔ w.toNat / 0x1000 = 0xB) ∧
    (decodeWord w = .error .familyC ↔ w.toNat / 0x1000 = 0xC) ∧
    (decodeWord w = .error .familyE ↔ w.toNat / 0x1000 = 0xE) ∧
    (decodeWord w = .error .familyF ↔
      w.toNat / 0x1000 = 0xF ∧ w.toNat % 256 ∉ [0x07, 0x15, 0x18, 0x1E, 0x29, 0x55, 0x65]) ∧
    (decodeWord w ≠ .error .truncated)

/-- R86 (the set and the numbers by the spec's decisions D2, D3): a word selects exactly one row of
the table and decodes to an instruction of that row, or selects none and is refused. -/
def Obligations.EachWordSelectsItsRowOrNone : Prop :=
  ∀ w : Word,
    (∃ i, decodeWord w = .ok i ∧ opcodeTable.filter (fun row => row.selects w) = [rowOf i]) ∨
    (∃ r, decodeWord w = .error r ∧ opcodeTable.filter (fun row => row.selects w) = [])

/-- R85, R86: decoding an instruction's encoding gives the instruction, every operand at every
value, from its word and from its bytes with any bytes after them. -/
def Obligations.DecodeOfEncodeIsIdentity : Prop :=
  ∀ (i : Instr) (rest : List Byte), i.wellFormed = true →
    decodeWord (encode i) = .ok i ∧ decodeBytes (encodeBytes i ++ rest) = .ok (i, rest)

/-- R83, R90, R101: encoding what a word decodes to gives that word with its meaningless bits
cleared, so the identity on canonical words (ignored nibbles: the spec's decision D5). That the
encoder writes 0 in nibble c of the two shifts and in nibble d of families 5 and 9 is R99's choice
of what an assembler emits (the spec's decision D26; notes/assumptions/6.md). -/
def Obligations.EncodeOfDecodeIsCanonical : Prop :=
  ∀ (w : Word) (i : Instr), decodeWord w = .ok i → encode i = canonicalWord w

/-- Words written out from the encodings of R86, one of each family that has an instruction (R95
lists the three that have none); family 5's is R90's example 0x512F. -/
def Obligations.SpecWordsDecode : Prop :=
  decodeWord 0b0000000011100000#16 = .ok .cls ∧
  decodeWord 0b0001101010111100#16 = .ok (.jp 0xABC#12) ∧
  decodeWord 0b0010111100000000#16 = .ok (.call 0xF00#12) ∧
  decodeWord 0b0011001101000010#16 = .ok (.seImm 3#4 0x42#8) ∧
  decodeWord 0b0100001101000010#16 = .ok (.sneImm 3#4 0x42#8) ∧
  decodeWord 0b0101000100101111#16 = .ok (.seReg 1#4 2#4) ∧
  decodeWord 0b0110000000000101#16 = .ok (.ldImm 0#4 0x05#8) ∧
  decodeWord 0b0111000000000011#16 = .ok (.addImm 0#4 0x03#8) ∧
  decodeWord 0b1000000100100111#16 = .ok (.subnReg 1#4 2#4) ∧
  decodeWord 0b1001000100100000#16 = .ok (.sneReg 1#4 2#4) ∧
  decodeWord 0b1010000100100011#16 = .ok (.ldI 0x123#12) ∧
  decodeWord 0b1101000100100101#16 = .ok (.drw 1#4 2#4 5#4) ∧
  decodeWord 0b1111001100011110#16 = .ok (.addI 3#4)

/-! ### Faults -/

/-- R218 (the spec's decision D9): a STEP or HOST_WRITE that raises a fault leaves every piece of
state as it was, PC included, and sets FAULT to a record with that PC. That the outcome is a next
state is the model's choice (notes/assumptions/1.md). -/
def Obligations.FaultsArePreciseAndAtomic : Prop :=
  (∀ (s t : State) (r : FaultRecord), step s = .next t → t.fault = some r →
    r.pc = s.pc ∧ t = { s with fault := some r }) ∧
  (∀ (s : State) (a : Nat) (v : Byte) (r : FaultRecord), s.fault = none →
    (s.hostWrite a v).fault = some r →
    r.pc = s.pc ∧ s.hostWrite a v = { s with fault := some r })

/-- R219 (the spec's decision D10; that `step` then answers its fault outcome is the model's choice,
notes/assumptions/1.md): while FAULT is set STEP is not enabled; TICK, RENDER and INSPECT stay
possible; only RESET clears the latch. -/
def Obligations.FaultedCoreTakesNoStep : Prop :=
  (∀ (s : State) (r : FaultRecord), s.fault = some r →
    step s = .fault (.stopped r) ∧ stepResult s = .notEnabled) ∧
  (∀ (x : Session) (r : FaultRecord) (q : Query), x.core.fault = some r →
    x.move .step = none ∧ x.move .tick ≠ none ∧ x.move .render ≠ none ∧
    x.move (.inspect q) ≠ none) ∧
  (∀ (x y : Session) (m : HostMove) (r : FaultRecord), x.core.fault = some r →
    x.move m = some y → m = .reset ∨ y.core.fault = some r)

/-- R221 (the spec's decision D31): the fetch check comes before decoding, decoding before
execution, and each instruction has at most one execute-phase fault, of one kind. -/
def Obligations.FaultPriority : Prop :=
  (∀ (s : State), s.fault = none → 4095 < s.pc.toNat + 1 →
    ∃ a, step s = .next (s.raise (.boundsError .fetch a))) ∧
  (∀ (s : State) (w : Word), s.fault = none → s.fetch = .ok w → legalWord w = false →
    step s = .next (s.raise (.decodeError w))) ∧
  (∀ (i : Instr) (s t : State) (r : FaultRecord), s.fault = none → exec i s = .next t →
    t.fault = some r →
    (i = .ret ∧ r.cause = .stackUnderflow) ∨
    (∃ addr, i = .call addr ∧ r.cause = .stackOverflow) ∨
    (∃ x y n a, i = .drw x y n ∧ r.cause = .boundsError .read a) ∨
    (∃ x a, i = .loadRegs x ∧ r.cause = .boundsError .read a) ∨
    (∃ x a, i = .storeRegs x ∧ r.cause = .boundsError .write a))

/-- R270, R271: every instruction ends in one STEP, and so does every enabled STEP. That a faulting
one ends in a next state, with the latch set, is the model's choice (notes/assumptions/1.md), and so
is that `exec` does not look at the latch (notes/assumptions/19.md). -/
def Obligations.EveryInstructionEndsInANextState : Prop :=
  (∀ (i : Instr) (s : State), ∃ t, exec i s = .next t) ∧
  (∀ s : State, s.fault = none → ∃ t, step s = .next t)

/-- R231: the result a STEP reports: the record it latched, or Next, or the self-jump stop (reported
beside `step`, the model's choice: notes/assumptions/10.md). -/
def Obligations.StepReportsWhatItDid : Prop :=
  ∀ (s t : State), step s = .next t →
    (∀ r, t.fault = some r → stepResult s = .fault r) ∧
    (t.fault = none → stepResult s = .next ∨ stepResult s = .selfLoopHalt s.pc)

/-- R220 (the spec's decision D21; made by `stepResult`, notes/assumptions/10.md): the report
SelfLoopHalt is made exactly by a STEP that executes a `JP` to its own address with
HALT_ON_SELF_JUMP on; the state is that of the ordinary jump, and FAULT stays none. -/
def Obligations.SelfLoopHaltIsOnlyAReport : Prop :=
  (∀ (s : State) (w : Word) (addr : Addr12), s.fault = none → s.fetch = .ok w →
    decodeWord w = .ok (.jp addr) → addr.toNat = s.pc.toNat →
    step s = .next s ∧
    stepResult s = if s.cfg.haltOnSelfJump then .selfLoopHalt s.pc else .next) ∧
  (∀ (s : State) (p : Word), stepResult s = .selfLoopHalt p →
    p = s.pc ∧ s.fault = none ∧ s.cfg.haltOnSelfJump = true ∧
    ∃ w addr, s.fetch = .ok w ∧ decodeWord w = .ok (.jp addr) ∧ addr.toNat = s.pc.toNat)

/-! ### Control flow -/

/-- R111, R217: RET pops PC, or underflows with an empty stack; the popped entry stays in the array
(R111 by R29, the spec's decision D28). A fault changes nothing but FAULT (R218, D9). -/
def Obligations.RetPopsOrUnderflows : Prop :=
  decodeWord 0x00EE#16 = .ok .ret ∧
  (∀ s : State, s.sp.val = 0 → FaultsWith .ret s .stackUnderflow) ∧
  (∀ (s : State) (k : Fin 16), s.sp.val = k.val + 1 →
    CompletesWith .ret s s.stack[k] { stackPointer := true }
      (fun t => t.sp.val = k.val ∧ ∀ j : Fin 16, t.stack[j] = s.stack[j]))

/-- R112: JP sets PC to addr and nothing else, from every state; a jump to its own address is
reported only when HALT_ON_SELF_JUMP is on (the spec's decision D21). -/
def Obligations.JpSetsThePc : Prop :=
  ∀ addr : Addr12, decodeWord (0x1#4 ++ addr) = .ok (.jp addr) ∧
    (∀ s : State, CompletesWith (.jp addr) s (BitVec.ofNat 16 addr.toNat) {} (fun _ => True)) ∧
    (∀ s : State, s.fault = none → s.fetch = .ok (0x1#4 ++ addr) →
      stepResult s = if s.cfg.haltOnSelfJump = true ∧ addr.toNat = s.pc.toNat
        then .selfLoopHalt s.pc else .next)

/-- R113, R216: CALL pushes pc0 + 2 and jumps, or overflows with 16 entries in use. -/
def Obligations.CallPushesOrOverflows : Prop :=
  ∀ addr : Addr12, decodeWord (0x2#4 ++ addr) = .ok (.call addr) ∧
    (∀ s : State, s.sp.val = 16 → FaultsWith (.call addr) s .stackOverflow) ∧
    (∀ (s : State) (k : Fin 16), s.sp.val = k.val →
      CompletesWith (.call addr) s (BitVec.ofNat 16 addr.toNat)
        { stackPointer := true, stackEntries := [k.val] }
        (fun t => t.sp.val = k.val + 1 ∧ t.stack[k] = s.pc + 2#16 ∧
          ∀ j : Fin 16, j ≠ k → t.stack[j] = s.stack[j]))

/-- R30: a RET after a CALL returns to the address after the CALL and restores SP; every live entry
and everything else is as it was. -/
def Obligations.RetInvertsCall : Prop :=
  ∀ (addr : Addr12) (s : State), s.sp.val < 16 →
    ∃ t u, exec (.call addr) s = .next t ∧ exec .ret t = .next u ∧
      u.pc = s.pc + 2#16 ∧ u.sp = s.sp ∧
      (∀ j : Fin 16, j.val < s.sp.val → u.stack[j] = s.stack[j]) ∧
      Frame s u { stackEntries := [s.sp.val] }

/-- R114, R115: the skips on an immediate. -/
def Obligations.SkipsOnImmediate : Prop :=
  ∀ (x : Reg) (kk : Byte),
    decodeWord (0x3#4 ++ (x ++ kk : BitVec 12)) = .ok (.seImm x kk) ∧
    decodeWord (0x4#4 ++ (x ++ kk : BitVec 12)) = .ok (.sneImm x kk) ∧
    ∀ s : State,
      CompletesWith (.seImm x kk) s
        (if (s.reg x).toNat = kk.toNat then s.pc + 4#16 else s.pc + 2#16) {} (fun _ => True) ∧
      CompletesWith (.sneImm x kk) s
        (if (s.reg x).toNat ≠ kk.toNat then s.pc + 4#16 else s.pc + 2#16) {} (fun _ => True)

/-- R116, R117: the skips on a register; nibble d of their words is ignored (R90, the spec's decision
D5). -/
def Obligations.SkipsOnRegister : Prop :=
  ∀ x y : Reg,
    (∀ d : Nibble,
      decodeWord (0x5#4 ++ (x ++ (y ++ d : BitVec 8) : BitVec 12)) = .ok (.seReg x y) ∧
      decodeWord (0x9#4 ++ (x ++ (y ++ d : BitVec 8) : BitVec 12)) = .ok (.sneReg x y)) ∧
    ∀ s : State,
      CompletesWith (.seReg x y) s
        (if (s.reg x).toNat = (s.reg y).toNat then s.pc + 4#16 else s.pc + 2#16) {}
        (fun _ => True) ∧
      CompletesWith (.sneReg x y) s
        (if (s.reg x).toNat ≠ (s.reg y).toNat then s.pc + 4#16 else s.pc + 2#16) {}
        (fun _ => True)

/-! ### Loads, additions and family 8 -/

/-- R131: LD Vx, kk. -/
def Obligations.LdImmediateWritesTheByte : Prop :=
  ∀ (x : Reg) (kk : Byte),
    decodeWord (0x6#4 ++ (x ++ kk : BitVec 12)) = .ok (.ldImm x kk) ∧
    ∀ s : State, CompletesWith (.ldImm x kk) s (s.pc + 2#16) { regs := [x] }
      (fun t => t.reg x = kk)

/-- R132: ADD Vx, kk, modulo 256, VF untouched unless it is the destination. -/
def Obligations.AddImmediateWrapsWithoutFlag : Prop :=
  ∀ (x : Reg) (kk : Byte),
    decodeWord (0x7#4 ++ (x ++ kk : BitVec 12)) = .ok (.addImm x kk) ∧
    ∀ s : State, CompletesWith (.addImm x kk) s (s.pc + 2#16) { regs := [x] }
      (fun t => (t.reg x).toNat = ((s.reg x).toNat + kk.toNat) % 256)

/-- R134: LD Vx, Vy, a copy (the spec's decision D25) that leaves VF alone (D13). -/
def Obligations.LdRegisterCopies : Prop :=
  ∀ x y : Reg,
    decodeWord (0x8#4 ++ (x ++ (y ++ 0x0#4 : BitVec 8) : BitVec 12)) = .ok (.ldReg x y) ∧
    ∀ s : State, CompletesWith (.ldReg x y) s (s.pc + 2#16) { regs := [x] }
      (fun t => t.reg x = s.reg y)

/-- R135, R136, R137: OR, AND, XOR bit by bit; VF untouched unless it is the destination (the spec's
decision D13). -/
def Obligations.LogicIsBitwiseWithoutFlag : Prop :=
  ∀ x y : Reg,
    decodeWord (0x8#4 ++ (x ++ (y ++ 0x1#4 : BitVec 8) : BitVec 12)) = .ok (.orReg x y) ∧
    decodeWord (0x8#4 ++ (x ++ (y ++ 0x2#4 : BitVec 8) : BitVec 12)) = .ok (.andReg x y) ∧
    decodeWord (0x8#4 ++ (x ++ (y ++ 0x3#4 : BitVec 8) : BitVec 12)) = .ok (.xorReg x y) ∧
    ∀ s : State,
      CompletesWith (.orReg x y) s (s.pc + 2#16) { regs := [x] } (fun t => ∀ k : Nat,
        (t.reg x).getLsbD k = ((s.reg x).getLsbD k || (s.reg y).getLsbD k)) ∧
      CompletesWith (.andReg x y) s (s.pc + 2#16) { regs := [x] } (fun t => ∀ k : Nat,
        (t.reg x).getLsbD k = ((s.reg x).getLsbD k && (s.reg y).getLsbD k)) ∧
      CompletesWith (.xorReg x y) s (s.pc + 2#16) { regs := [x] } (fun t => ∀ k : Nat,
        (t.reg x).getLsbD k = ((s.reg x).getLsbD k != (s.reg y).getLsbD k))

/-- R138: ADD Vx, Vy modulo 256, VF = carry; with x = VF the flag is what VF holds (R133, the
spec's decision D12). -/
def Obligations.AddRegisterSetsCarry : Prop :=
  ∀ x y : Reg,
    decodeWord (0x8#4 ++ (x ++ (y ++ 0x4#4 : BitVec 8) : BitVec 12)) = .ok (.addReg x y) ∧
    ∀ s : State, CompletesWith (.addReg x y) s (s.pc + 2#16) { regs := [x, 0xF#4] } (fun t =>
      (x ≠ 0xF#4 → (t.reg x).toNat = ((s.reg x).toNat + (s.reg y).toNat) % 256) ∧
      (t.reg 0xF#4).toNat = if (s.reg x).toNat + (s.reg y).toNat > 255 then 1 else 0)

/-- R139: SUB modulo 256, VF = the strict comparison; with x = VF the flag is what VF holds (R133,
the spec's decision D12). -/
def Obligations.SubRegisterSetsStrictFlag : Prop :=
  ∀ x y : Reg,
    decodeWord (0x8#4 ++ (x ++ (y ++ 0x5#4 : BitVec 8) : BitVec 12)) = .ok (.subReg x y) ∧
    ∀ s : State, CompletesWith (.subReg x y) s (s.pc + 2#16) { regs := [x, 0xF#4] } (fun t =>
      (x ≠ 0xF#4 → ((t.reg x).toNat : Int) = ((s.reg x).toNat - (s.reg y).toNat : Int) % 256) ∧
      (t.reg 0xF#4).toNat = if (s.reg x).toNat > (s.reg y).toNat then 1 else 0)

/-- R141: SUBN, the reverse subtraction (the spec's decision D25), VF = the strict comparison; with
x = VF the flag is what VF holds (R133, the spec's decision D12). -/
def Obligations.SubnRegisterSubtractsInReverse : Prop :=
  ∀ x y : Reg,
    decodeWord (0x8#4 ++ (x ++ (y ++ 0x7#4 : BitVec 8) : BitVec 12)) = .ok (.subnReg x y) ∧
    ∀ s : State, CompletesWith (.subnReg x y) s (s.pc + 2#16) { regs := [x, 0xF#4] } (fun t =>
      (x ≠ 0xF#4 → ((t.reg x).toNat : Int) = ((s.reg y).toNat - (s.reg x).toNat : Int) % 256) ∧
      (t.reg 0xF#4).toNat = if (s.reg y).toNat > (s.reg x).toNat then 1 else 0)

/-- R140, R142: SHR and SHL of Vx itself, VF = the bit shifted out; nibble y of their words is
ignored; with x = VF the flag is what VF holds (R133, the spec's decision D12). -/
def Obligations.ShiftsSetTheBitShiftedOut : Prop :=
  ∀ x : Reg,
    (∀ y : Nibble,
      decodeWord (0x8#4 ++ (x ++ (y ++ 0x6#4 : BitVec 8) : BitVec 12)) = .ok (.shr x) ∧
      decodeWord (0x8#4 ++ (x ++ (y ++ 0xE#4 : BitVec 8) : BitVec 12)) = .ok (.shl x)) ∧
    ∀ s : State,
      CompletesWith (.shr x) s (s.pc + 2#16) { regs := [x, 0xF#4] } (fun t =>
        (x ≠ 0xF#4 → (t.reg x).toNat = (s.reg x).toNat / 2) ∧
        (t.reg 0xF#4).toNat = (s.reg x).toNat % 2) ∧
      CompletesWith (.shl x) s (s.pc + 2#16) { regs := [x, 0xF#4] } (fun t =>
        (x ≠ 0xF#4 → (t.reg x).toNat = (s.reg x).toNat * 2 % 256) ∧
        (t.reg 0xF#4).toNat = (s.reg x).toNat / 128)

/-- R144 (derived by the spec): the identities that tie result and flag together, for x ≠ VF. -/
def Obligations.ArithmeticIdentities : Prop :=
  ∀ (x y : Reg) (s : State), x ≠ 0xF#4 →
    (∃ t, exec (.addReg x y) s = .next t ∧
      256 * (t.reg 0xF#4).toNat + (t.reg x).toNat = (s.reg x).toNat + (s.reg y).toNat) ∧
    (∃ t, exec (.subReg x y) s = .next t ∧
      ((t.reg 0xF#4).toNat = 1 ↔ (s.reg y).toNat < (s.reg x).toNat) ∧
      ((s.reg y).toNat ≤ (s.reg x).toNat →
        (t.reg x).toNat = (s.reg x).toNat - (s.reg y).toNat)) ∧
    (∀ (x' y' : Reg) (s' : State), x' ≠ 0xF#4 → s'.reg x' = s.reg y → s'.reg y' = s.reg x →
      ∃ t t', exec (.subnReg x y) s = .next t ∧ exec (.subReg x' y') s' = .next t' ∧
        t.reg x = t'.reg x' ∧ t.reg 0xF#4 = t'.reg 0xF#4) ∧
    (∃ t, exec (.shr x) s = .next t ∧
      2 * (t.reg x).toNat + (t.reg 0xF#4).toNat = (s.reg x).toNat) ∧
    (∃ t, exec (.shl x) s = .next t ∧
      256 * (t.reg 0xF#4).toNat + (t.reg x).toNat = 2 * (s.reg x).toNat) ∧
    (∃ t, exec (.xorReg x x) s = .next t ∧ (t.reg x).toNat = 0) ∧
    (∃ t, exec (.orReg x x) s = .next t ∧ t.reg x = s.reg x) ∧
    (∃ t, exec (.andReg x x) s = .next t ∧ t.reg x = s.reg x)

/-- R145 (the spec's decision D12): VF as an operand of a flag-writing operation. -/
def Obligations.FlagRegisterAsOperand : Prop :=
  ∀ (y : Reg) (s : State),
    (∃ t, exec (.addReg 0xF#4 y) s = .next t ∧ (t.reg 0xF#4).toNat =
      if (s.reg 0xF#4).toNat + (s.reg y).toNat > 255 then 1 else 0) ∧
    (∃ t, exec (.subReg 0xF#4 y) s = .next t ∧ (t.reg 0xF#4).toNat =
      if (s.reg 0xF#4).toNat > (s.reg y).toNat then 1 else 0) ∧
    (∃ t, exec (.shr 0xF#4) s = .next t ∧ (t.reg 0xF#4).toNat = (s.reg 0xF#4).toNat % 2) ∧
    (∃ t, exec (.subnReg 0xF#4 y) s = .next t ∧ (t.reg 0xF#4).toNat =
      if (s.reg y).toNat > (s.reg 0xF#4).toNat then 1 else 0) ∧
    (∃ t, exec (.shl 0xF#4) s = .next t ∧ (t.reg 0xF#4).toNat = (s.reg 0xF#4).toNat / 128) ∧
    (y ≠ 0xF#4 →
      (∃ t, exec (.addReg y 0xF#4) s = .next t ∧
        (t.reg y).toNat = ((s.reg y).toNat + (s.reg 0xF#4).toNat) % 256 ∧
        (t.reg 0xF#4).toNat = if (s.reg y).toNat + (s.reg 0xF#4).toNat > 255 then 1 else 0) ∧
      (∃ t, exec (.subReg y 0xF#4) s = .next t ∧
        ((t.reg y).toNat : Int) = ((s.reg y).toNat - (s.reg 0xF#4).toNat : Int) % 256 ∧
        (t.reg 0xF#4).toNat = if (s.reg y).toNat > (s.reg 0xF#4).toNat then 1 else 0) ∧
      (∃ t, exec (.subnReg y 0xF#4) s = .next t ∧
        ((t.reg y).toNat : Int) = ((s.reg 0xF#4).toNat - (s.reg y).toNat : Int) % 256 ∧
        (t.reg 0xF#4).toNat = if (s.reg 0xF#4).toNat > (s.reg y).toNat then 1 else 0) ∧
      (∀ z : Nibble, decodeWord (0x8#4 ++ (y ++ (0xF#4 ++ 0x6#4 : BitVec 8) : BitVec 12)) =
        decodeWord (0x8#4 ++ (y ++ (z ++ 0x6#4 : BitVec 8) : BitVec 12)))) ∧
    (∃ t, exec (.addReg 0xF#4 0xF#4) s = .next t ∧ (t.reg 0xF#4).toNat =
      if 2 * (s.reg 0xF#4).toNat > 255 then 1 else 0) ∧
    (∃ t, exec (.subReg 0xF#4 0xF#4) s = .next t ∧ (t.reg 0xF#4).toNat = 0) ∧
    (∃ t, exec (.subnReg 0xF#4 0xF#4) s = .next t ∧ (t.reg 0xF#4).toNat = 0)

/-! ### Index register and memory blocks -/

/-- R161: LD I, addr. -/
def Obligations.LdIndexZeroExtends : Prop :=
  ∀ addr : Addr12, decodeWord (0xA#4 ++ addr) = .ok (.ldI addr) ∧
    ∀ s : State, CompletesWith (.ldI addr) s (s.pc + 2#16) { index := true }
      (fun t => t.i.toNat = addr.toNat)

/-- R162 (no 12-bit mask by the spec's decision D8): ADD I, Vx modulo 65536; VF is not written. -/
def Obligations.AddIndexWrapsAt65536 : Prop :=
  ∀ x : Reg, decodeWord (0xF#4 ++ (x ++ 0x1E#8 : BitVec 12)) = .ok (.addI x) ∧
    ∀ s : State, CompletesWith (.addI x) s (s.pc + 2#16) { index := true }
      (fun t => t.i.toNat = (s.i.toNat + (s.reg x).toNat) % 65536)

/-- R163 (the spec's decisions D18, D33): LD F, Vx: FONT_BASE + V[x]·5, all 8 bits of V[x]; the sum
never reaches 65536. -/
def Obligations.LdFontMultipliesTheWholeByte : Prop :=
  ∀ x : Reg, decodeWord (0xF#4 ++ (x ++ 0x29#8 : BitVec 12)) = .ok (.ldF x) ∧
    ∀ s : State, CompletesWith (.ldF x) s (s.pc + 2#16) { index := true }
      (fun t => t.i.toNat = s.cfg.fontBase.val + (s.reg x).toNat * 5 ∧ t.i.toNat ≤ 1707)

/-- R164, R60 (the spec's decisions D9, D32): LD [I], Vx stores V0..Vx at I..I+x, I unchanged, or
raises BoundsError(write) and stores nothing. (That a byte written reads back needs memory in its
canonical form, an invariant: StepKeepsTheInvariant.) -/
def Obligations.StoreRegistersOrBoundsError : Prop :=
  ∀ x : Reg, decodeWord (0xF#4 ++ (x ++ 0x55#8 : BitVec 12)) = .ok (.storeRegs x) ∧
    ∀ s : State,
      (s.i.toNat + x.toNat > 4095 →
        FaultsWith (.storeRegs x) s (.boundsError .write (max s.i.toNat 4096))) ∧
      (s.i.toNat + x.toNat ≤ 4095 →
        CompletesWith (.storeRegs x) s (s.pc + 2#16)
          { memFirst := s.i.toNat, memCount := x.toNat + 1 }
          (fun t => s.mem.wf = true → ∀ k : Reg, k.toNat ≤ x.toNat →
            t.mem.read (s.i.toNat + k.toNat) = s.reg k))

/-- R165, R60 (the spec's decisions D9, D32): LD Vx, [I] loads V0..Vx from I..I+x, I unchanged, or
raises BoundsError(read) and loads nothing. -/
def Obligations.LoadRegistersOrBoundsError : Prop :=
  ∀ x : Reg, decodeWord (0xF#4 ++ (x ++ 0x65#8 : BitVec 12)) = .ok (.loadRegs x) ∧
    ∀ s : State,
      (s.i.toNat + x.toNat > 4095 →
        FaultsWith (.loadRegs x) s (.boundsError .read (max s.i.toNat 4096))) ∧
      (s.i.toNat + x.toNat ≤ 4095 →
        CompletesWith (.loadRegs x) s (s.pc + 2#16)
          { regs := (List.range (x.toNat + 1)).map (BitVec.ofNat 4) }
          (fun t => ∀ k : Reg, k.toNat ≤ x.toNat →
            t.reg k = s.mem.read (s.i.toNat + k.toNat)))

/-- R63, R266: a fetch after LD [I], Vx reads the bytes it stored, at any PC: where both bytes of
the word were stored, one, or none. -/
def Obligations.FetchSeesTheStore : Prop :=
  ∀ (x : Reg) (s : State) (p : Word), s.mem.wf = true → s.i.toNat + x.toNat ≤ 4095 →
    p.toNat ≤ 4094 →
    ∃ (t : State) (hi lo : Byte), exec (.storeRegs x) s = .next t ∧
      (t.setPc p).fetch = .ok (wordOfBytes hi lo) ∧
      (∀ k : Reg, k.toNat ≤ x.toNat →
        (p.toNat = s.i.toNat + k.toNat → hi = s.reg k) ∧
        (p.toNat + 1 = s.i.toNat + k.toNat → lo = s.reg k)) ∧
      (¬ (s.i.toNat ≤ p.toNat ∧ p.toNat ≤ s.i.toNat + x.toNat) → hi = s.mem.read p.toNat) ∧
      (¬ (s.i.toNat ≤ p.toNat + 1 ∧ p.toNat + 1 ≤ s.i.toNat + x.toNat) →
        lo = s.mem.read (p.toNat + 1))

/-! ### Display -/

/-- R181: CLS clears every pixel and always sets REDRAW. -/
def Obligations.ClsClearsThePlane : Prop :=
  decodeWord 0x00E0#16 = .ok .cls ∧
  ∀ s : State, CompletesWith .cls s (s.pc + 2#16) { plane := true, redraw := true } (fun t =>
    (∀ px py : Nat, px < 64 → py < 32 → pixel t.fb px py = false) ∧ t.redraw = true)

/-- R183, R184 (the spec's decisions D14 to D17): DRW toggles exactly the pixels the sprite covers,
VF = 1 iff one of them was lit, REDRAW is set iff there is one; the origin is the old (V[x], V[y]),
VF included; or it raises BoundsError(read) and does nothing. -/
def Obligations.DrawXorsTheSprite : Prop :=
  ∀ (x y : Reg) (n : Nibble),
    decodeWord (0xD#4 ++ (x ++ (y ++ n : BitVec 8) : BitVec 12)) = .ok (.drw x y n) ∧
    ∀ s : State,
      (n.toNat ≥ 1 ∧ s.i.toNat + n.toNat - 1 > 4095 →
        FaultsWith (.drw x y n) s (.boundsError .read (max s.i.toNat 4096))) ∧
      (SpriteInMemory s n →
        CompletesWith (.drw x y n) s (s.pc + 2#16)
          { regs := [0xF#4], plane := true, redraw := true } (fun t =>
            (∀ px py : Nat, spriteCovers s x y n px py → pixel t.fb px py = !pixel s.fb px py) ∧
            (∀ px py : Nat, px < 64 → py < 32 → ¬ spriteCovers s x y n px py →
              pixel t.fb px py = pixel s.fb px py) ∧
            ((∃ px py, spriteCovers s x y n px py ∧ pixel s.fb px py = true) →
              (t.reg 0xF#4).toNat = 1) ∧
            ((¬ ∃ px py, spriteCovers s x y n px py ∧ pixel s.fb px py = true) →
              (t.reg 0xF#4).toNat = 0) ∧
            (t.redraw = true ↔ s.redraw = true ∨ ∃ px py, spriteCovers s x y n px py)))

/-- R185, R188 (the spec's decisions D15, D17): a draw that lies outside the display or has no rows
changes no pixel and gives VF = 0 (with no rows it cannot fault, whatever I holds); no draw changes
a pixel left of or above its origin, or more than 8 columns or n rows from it. -/
def Obligations.ClippedDrawNeverWraps : Prop :=
  ∀ (x y : Reg) (n : Nibble) (s : State), SpriteInMemory s n →
    ((n.toNat = 0 ∨ 64 ≤ (s.reg x).toNat ∨ 32 ≤ (s.reg y).toNat) →
      CompletesWith (.drw x y n) s (s.pc + 2#16) { regs := [0xF#4] }
        (fun t => (t.reg 0xF#4).toNat = 0)) ∧
    (∃ t, exec (.drw x y n) s = .next t ∧ ∀ px py : Nat, px < 64 → py < 32 →
      pixel t.fb px py ≠ pixel s.fb px py →
      (s.reg x).toNat ≤ px ∧ px < (s.reg x).toNat + 8 ∧
      (s.reg y).toNat ≤ py ∧ py < (s.reg y).toNat + n.toNat)

/-- R187 (derived by the spec from R183): two draws of the same sprite at the same origin restore
the plane. That the second gives VF = 1 iff a toggled pixel was dark before the first, so on a blank
plane iff the sprite lights a pixel, is the model's reading of R183 against R187's parenthesis
(notes/assumptions/15.md). -/
def Obligations.DrawTwiceRestoresThePlane : Prop :=
  ∀ (x y : Reg) (n : Nibble) (s : State), SpriteInMemory s n →
    ∃ t, exec (.drw x y n) s = .next t ∧
      (t.reg x = s.reg x → t.reg y = s.reg y →
        ∃ u, exec (.drw x y n) t = .next u ∧ u.fb = s.fb ∧
          ((∃ px py, spriteCovers s x y n px py ∧ pixel s.fb px py = false) →
            (u.reg 0xF#4).toNat = 1) ∧
          ((¬ ∃ px py, spriteCovers s x y n px py ∧ pixel s.fb px py = false) →
            (u.reg 0xF#4).toNat = 0))

/-- R187's parenthesis as T4 of spec/95_test_vectors.md reads it, for EVERY plane: the second draw
gives VF = 1 whenever the sprite has a set bit inside the display. R183 contradicts it where all
those pixels were lit before the first draw; it is expected to fail (notes/assumptions/15.md). -/
def Obligations.SecondDrawCollidesOnEveryPlane : Prop :=
  ∀ (x y : Reg) (n : Nibble) (s : State), SpriteInMemory s n → x ≠ 0xF#4 → y ≠ 0xF#4 →
    (∃ px py, spriteCovers s x y n px py) →
    ∃ t u, exec (.drw x y n) s = .next t ∧ exec (.drw x y n) t = .next u ∧
      (u.reg 0xF#4).toNat = 1

/-! ### Timers -/

/-- R201, R202, R203: the three moves between a register and a timer. -/
def Obligations.TimerMoves : Prop :=
  ∀ x : Reg,
    decodeWord (0xF#4 ++ (x ++ 0x07#8 : BitVec 12)) = .ok (.ldVxDt x) ∧
    decodeWord (0xF#4 ++ (x ++ 0x15#8 : BitVec 12)) = .ok (.ldDtVx x) ∧
    decodeWord (0xF#4 ++ (x ++ 0x18#8 : BitVec 12)) = .ok (.ldStVx x) ∧
    ∀ s : State,
      CompletesWith (.ldVxDt x) s (s.pc + 2#16) { regs := [x] } (fun t => t.reg x = s.dt) ∧
      CompletesWith (.ldDtVx x) s (s.pc + 2#16) { delayTimer := true }
        (fun t => t.dt = s.reg x) ∧
      CompletesWith (.ldStVx x) s (s.pc + 2#16) { soundTimer := true }
        (fun t => t.st = s.reg x)

/-! ### Host operations -/

/-- R233 (one TICK for both by the spec's decision D20): TICK counts both timers down to 0 and no
further, changes nothing else, and is always enabled. -/
def Obligations.TickCountsBothTimersDown : Prop :=
  ∀ x : Session, ∃ y, x.move .tick = some y ∧ y.phase = x.phase ∧
    y.core.dt.toNat = x.core.dt.toNat - 1 ∧ y.core.st.toNat = x.core.st.toNat - 1 ∧
    y.core = { x.core with dt := y.core.dt, st := y.core.st }

/-- R235 (total by the spec's decision D27): RENDER returns the plane and DT, clears REDRAW, and
changes nothing else, whatever REDRAW was. -/
def Obligations.RenderReturnsTheSnapshot : Prop :=
  ∀ x : Session,
    x.core.render.1 = { plane := x.core.fb, delay := x.core.dt } ∧
    x.move .render = some { core := { x.core with redraw := false }, phase := x.phase }

/-- R232 (the spec's decision D22; the phases are the model's form of it, notes/assumptions/8.md):
HOST_WRITE writes the byte, or raises BoundsError(host_write, a) for a > 4095; it is
enabled between RESET and the first STEP. (That the byte reads back needs the canonical form.) -/
def Obligations.HostWriteWritesOrFaults : Prop :=
  ∀ (s : State) (a : Nat) (v : Byte), s.fault = none →
    (∃ y, Session.move (.hostWrite a v) { core := s, phase := .loading } = some y ∧
      y.core = s.hostWrite a v ∧ y.phase = .loading) ∧
    Session.move (.hostWrite a v) { core := s, phase := .running } = none ∧
    (a > 4095 → s.hostWrite a v =
      { s with fault := some { cause := .boundsError .hostWrite a, pc := s.pc } }) ∧
    (a ≤ 4095 → s.hostWrite a v = { s with mem := (s.hostWrite a v).mem } ∧
      (s.mem.wf = true → (s.hostWrite a v).mem.read a = v) ∧
      (∀ b : Nat, b ≠ a → (s.hostWrite a v).mem.read b = s.mem.read b))

/-- R264, R262: the launch state of a program of at most 3584 bytes is the reset state with the
program at 0x200; of a longer one, byte 3584 raises BoundsError(host_write, 4096) (R232). -/
def Obligations.LaunchStateHoldsTheProgram : Prop :=
  ∀ (c : Config) (rom : List Byte),
    (rom.length ≤ 3584 →
      State.launch c rom = { State.resetWith c with mem := (State.launch c rom).mem } ∧
      (∀ k : Fin rom.length, (State.launch c rom).mem.read (0x200 + k.val) = rom[k]) ∧
      (∀ a : Nat, ¬ (0x200 ≤ a ∧ a < 0x200 + rom.length) →
        (State.launch c rom).mem.read a = (State.resetWith c).mem.read a)) ∧
    (3584 < rom.length → (State.launch c rom).fault =
      some { cause := .boundsError .hostWrite 4096, pc := 0x0200#16 })

/-! ### The whole machine -/

/-- R26 (the faulting case by the spec's decision D9): how each instruction leaves PC, and that a
faulting STEP leaves it at pc0. -/
def Obligations.PcAfterEachInstruction : Prop :=
  ∀ (i : Instr) (s t : State), s.fault = none → exec i s = .next t →
    (t.fault ≠ none → t.pc = s.pc) ∧
    (t.fault = none →
      match i with
      | .jp addr => t.pc.toNat = addr.toNat
      | .call addr => t.pc.toNat = addr.toNat
      | .ret => ∃ k : Fin 16, s.sp.val = k.val + 1 ∧ t.pc = s.stack[k]
      | .seImm x kk => t.pc = if s.reg x = kk then s.pc + 4#16 else s.pc + 2#16
      | .sneImm x kk => t.pc = if s.reg x ≠ kk then s.pc + 4#16 else s.pc + 2#16
      | .seReg x y => t.pc = if s.reg x = s.reg y then s.pc + 4#16 else s.pc + 2#16
      | .sneReg x y => t.pc = if s.reg x ≠ s.reg y then s.pc + 4#16 else s.pc + 2#16
      | _ => t.pc = s.pc + 2#16)

/-- R21, R23, R29, R30, R37: whatever an instruction does, it writes no piece of state but those
the spec's tables list for it (of the stack, CALL writes SP and the one entry at SP, RET writes SP);
the configuration is written by none. -/
def Obligations.EveryInstructionKeepsItsFrame : Prop :=
  ∀ (i : Instr) (s t : State), exec i s = .next t →
    Frame s t (writesOf i s) ∨ ∃ r, t = { s with fault := some r }

/-- R29, R32, R34, R38: no instruction reads ST, REDRAW or a dead stack entry: STEPs from states that
differ in nothing else end in states that differ in nothing else. -/
def Obligations.HiddenStateIsNeverRead : Prop :=
  ∀ s s' : State, observable s = observable s' → SameOutcome (step s) (step s')

/-- The invariant (the model's own) holds after RESET, for every configuration. -/
def Obligations.ResetMeetsTheInvariant : Prop := ∀ c : Config, Inv (State.resetWith c)

/-- R27, R29, R118, R211: every STEP keeps the invariant: memory canonical, PC at most 4098, every
live stack entry in 2..4096, a latched record as R211 says. -/
def Obligations.StepKeepsTheInvariant : Prop :=
  ∀ s t : State, Inv s → step s = .next t → Inv t

/-- The invariant under everything the host may do between STEPs (R237). -/
def Obligations.HostMovesKeepTheInvariant : Prop :=
  ∀ (x y : Session) (m : HostMove), Inv x.core → x.move m = some y → Inv y.core

/-- R268 (the spec's decision D24): a finished state is one whose PC points at the word 1nnn with
nnn = PC; STEP leaves it unchanged, and TICK and RENDER leave it finished. -/
def Obligations.FinishedStateIsAFixedPoint : Prop :=
  (∀ s : State, Finished s ↔
    s.fault = none ∧ ∃ w : Word, s.fetch = .ok w ∧ w.toNat = 0x1000 + s.pc.toNat ∧
      s.pc.toNat < 4096) ∧
  (∀ s : State, Finished s → step s = .next s ∧ Finished s.tick ∧ Finished s.render.2)
end

