-- ==== Sys2Proof/Laws/Decode.lean ====
section
/-! SUPPORT. The fields of a word put together by each format (spec/30_encoding.md R82). -/
namespace Sys2Proof

/-! ### The bits of each format -/

theorem getLsbD_formAddr (a : Nibble) (addr : Addr12) (k : Nat) :
    (formAddr a addr).getLsbD k = if k < 12 then addr.getLsbD k else a.getLsbD (k - 12) :=
  BitVec.getLsbD_append

theorem getLsbD_formXkk (a : Nibble) (x : Reg) (kk : Byte) (k : Nat) :
    (formXkk a x kk).getLsbD k =
      if k < 12 then (if k < 8 then kk.getLsbD k else x.getLsbD (k - 8))
      else a.getLsbD (k - 12) := by
  have g : (x ++ kk : Addr12).getLsbD k = if k < 8 then kk.getLsbD k else x.getLsbD (k - 8) :=
    BitVec.getLsbD_append
  have h := getLsbD_formAddr a (x ++ kk : Addr12) k
  rw [g] at h
  exact h

theorem getLsbD_formXyn (a : Nibble) (x y : Reg) (d : Nibble) (k : Nat) :
    (formXyn a x y d).getLsbD k =
      if k < 12 then
        (if k < 8 then (if k < 4 then d.getLsbD k else y.getLsbD (k - 4)) else x.getLsbD (k - 8))
      else a.getLsbD (k - 12) := by
  have g : (y ++ d : Byte).getLsbD k = if k < 4 then d.getLsbD k else y.getLsbD (k - 4) :=
    BitVec.getLsbD_append
  have h := getLsbD_formXkk a x (y ++ d : Byte) k
  rw [g] at h
  exact h

theorem getLsbD_wordOfBytes (hi lo : Byte) (k : Nat) :
    (wordOfBytes hi lo).getLsbD k = if k < 8 then lo.getLsbD k else hi.getLsbD (k - 8) :=
  BitVec.getLsbD_append

/-! ### Format ADDR -/

@[simp] theorem nibbleA_formAddr (a : Nibble) (addr : Addr12) : nibbleA (formAddr a addr) = a := by
  refine BitVec.eq_of_getLsbD_eq fun k hk => ?_
  simp [nibbleA, getLsbD_formAddr, hk]

@[simp] theorem addrField_formAddr (a : Nibble) (addr : Addr12) :
    addrField (formAddr a addr) = addr := by
  refine BitVec.eq_of_getLsbD_eq fun k hk => ?_
  simp [addrField, getLsbD_formAddr, hk]

/-! ### Format XKK -/

@[simp] theorem nibbleA_formXkk (a : Nibble) (x : Reg) (kk : Byte) :
    nibbleA (formXkk a x kk) = a := nibbleA_formAddr a _

@[simp] theorem nibbleB_formXkk (a : Nibble) (x : Reg) (kk : Byte) :
    nibbleB (formXkk a x kk) = x := by
  refine BitVec.eq_of_getLsbD_eq fun k hk => ?_
  simp [nibbleB, getLsbD_formXkk, hk, show 8 + k < 12 by omega]

@[simp] theorem lowByte_formXkk (a : Nibble) (x : Reg) (kk : Byte) :
    lowByte (formXkk a x kk) = kk := by
  refine BitVec.eq_of_getLsbD_eq fun k hk => ?_
  simp [lowByte, getLsbD_formXkk, hk, show k < 12 by omega]

/-! ### Formats XY and XYN -/

@[simp] theorem nibbleA_formXyn (a : Nibble) (x y : Reg) (d : Nibble) :
    nibbleA (formXyn a x y d) = a := nibbleA_formAddr a _

@[simp] theorem nibbleB_formXyn (a : Nibble) (x y : Reg) (d : Nibble) :
    nibbleB (formXyn a x y d) = x := nibbleB_formXkk a x _

@[simp] theorem nibbleC_formXyn (a : Nibble) (x y : Reg) (d : Nibble) :
    nibbleC (formXyn a x y d) = y := by
  refine BitVec.eq_of_getLsbD_eq fun k hk => ?_
  simp [nibbleC, getLsbD_formXyn, hk, show 4 + k < 12 by omega,
    show 4 + k < 8 by omega]

@[simp] theorem nibbleD_formXyn (a : Nibble) (x y : Reg) (d : Nibble) :
    nibbleD (formXyn a x y d) = d := by
  refine BitVec.eq_of_getLsbD_eq fun k hk => ?_
  simp [nibbleD, getLsbD_formXyn, hk, show k < 12 by omega,
    show k < 8 by omega]

/-! ### Bytes -/

theorem decodeBytes_wordBytes (hi lo : Byte) (rest : List Byte) :
    decodeBytes (hi :: lo :: rest) = (decodeWord (wordOfBytes hi lo)).map (·, rest) := rfl

end Sys2Proof
end

