-- ==== Sys2Proof/Laws/Display.lean ====
section
/-! SUPPORT. What the draw does, said once (spec/43_display.md R183, R186, R187): the set of pixels
it toggles, when it collides and when it changes the plane. -/
namespace Sys2Proof.Machine

/-- A set of pixels, by column and row. -/
abbrev Pixels := Nat → Nat → Prop

/-- `d'` is `d` after toggling the pixels of `P`, all on the display, each once. -/
structure Toggles (d d' : Drawing) (P : Pixels) : Prop where
  onDisplay : ∀ px py, P px py → px < 64 ∧ py < 32
  toggled : ∀ px py, P px py → pixel d'.plane px py = !pixel d.plane px py
  kept : ∀ px py, px < 64 → py < 32 → ¬ P px py → pixel d'.plane px py = pixel d.plane px py
  collision : d'.collision = true ↔
    d.collision = true ∨ ∃ px py, P px py ∧ pixel d.plane px py = true
  changed : d'.changed = true ↔ d.changed = true ∨ ∃ px py, P px py

theorem Toggles.refl (d : Drawing) : Toggles d d (fun _ _ => False) := by
  constructor <;> simp

/-- Draws of disjoint sets add up. -/
theorem Toggles.append {d e f : Drawing} {P Q : Pixels} (h : Toggles d e P) (k : Toggles e f Q)
    (disjoint : ∀ px py, P px py → ¬ Q px py) :
    Toggles d f (fun px py => P px py ∨ Q px py) where
  onDisplay px py hp := hp.elim (h.onDisplay px py) (k.onDisplay px py)
  toggled px py hp := by
    by_cases hP : P px py
    · obtain ⟨hx, hy⟩ := h.onDisplay px py hP
      rw [k.kept px py hx hy (disjoint px py hP), h.toggled px py hP]
    · have hQ := hp.resolve_left hP
      obtain ⟨hx, hy⟩ := k.onDisplay px py hQ
      rw [k.toggled px py hQ, h.kept px py hx hy hP]
  kept px py hx hy hn := by
    rw [k.kept px py hx hy (fun q => hn (.inr q)), h.kept px py hx hy (fun p => hn (.inl p))]
  collision := by
    have hQ : ∀ px py, Q px py → (pixel e.plane px py = pixel d.plane px py) := fun px py q => by
      obtain ⟨hx, hy⟩ := k.onDisplay px py q
      exact h.kept px py hx hy (fun p => disjoint px py p q)
    rw [k.collision, h.collision]
    constructor
    · rintro ((c | ⟨px, py, p, b⟩) | ⟨px, py, q, b⟩)
      · exact .inl c
      · exact .inr ⟨px, py, .inl p, b⟩
      · exact .inr ⟨px, py, .inr q, by rw [← hQ px py q]; exact b⟩
    · rintro (c | ⟨px, py, p | q, b⟩)
      · exact .inl (.inl c)
      · exact .inl (.inr ⟨px, py, p, b⟩)
      · exact .inr ⟨px, py, q, by rw [hQ px py q]; exact b⟩
  changed := by
    rw [k.changed, h.changed]
    constructor
    · rintro ((c | ⟨px, py, p⟩) | ⟨px, py, q⟩)
      · exact .inl c
      · exact .inr ⟨px, py, .inl p⟩
      · exact .inr ⟨px, py, .inr q⟩
    · rintro (c | ⟨px, py, p | q⟩)
      · exact .inl (.inl c)
      · exact .inl (.inr ⟨px, py, p⟩)
      · exact .inr ⟨px, py, q⟩

theorem Toggles.congr {d e : Drawing} {P Q : Pixels} (h : Toggles d e P)
    (same : ∀ px py, P px py ↔ Q px py) : Toggles d e Q := by
  have : P = Q := funext fun px => funext fun py => propext (same px py)
  exact this ▸ h

/-- A pixel of the plane after one is toggled. -/
theorem pixel_togglePixel (plane : Plane) {x y px py : Nat} (hx : x < 64) (hy : y < 32)
    (hq : py < 32) :
    pixel (togglePixel plane x y) px py =
      if px = x ∧ py = y then !pixel plane px py else pixel plane px py := by
  unfold pixel togglePixel
  rw [dif_pos hq, dif_pos hy, dif_pos hq, Vector.getElem_set]
  by_cases h : y = py
  · subst h
    rw [if_pos rfl, BitVec.getLsbD_xor, BitVec.getLsbD_twoPow]
    by_cases e : px = x
    · subst e; simp [hx]
    · simp [e, show ¬ x = px from fun e' => e e'.symm]
  · rw [if_neg h, if_neg (fun e => h e.2.symm)]

/-- One sprite bit, on a display row. -/
theorem drawPixel_toggles (d : Drawing) {xx yy : Nat} (b : Bool) (hy : yy < 32) :
    Toggles d (drawPixel d xx yy b)
      (fun px py => px = xx ∧ py = yy ∧ xx < 64 ∧ b = true) := by
  unfold drawPixel
  split
  · exact (Toggles.refl d).congr fun px py => ⟨False.elim, fun h => by omega⟩
  · split
    · rename_i hx hb
      have hx : xx < 64 := by omega
      constructor
      · rintro px py ⟨rfl, rfl, -⟩
        exact ⟨hx, hy⟩
      · rintro px py ⟨rfl, rfl, -⟩
        simp [pixel_togglePixel _ hx hy hy]
      · intro px py hp hq hn
        rw [pixel_togglePixel _ hx hy hq, if_neg]
        exact fun e => hn ⟨e.1, e.2, hx, hb⟩
      · simp only [Bool.or_eq_true]
        constructor
        · rintro (c | c)
          · exact .inl c
          · exact .inr ⟨xx, yy, ⟨rfl, rfl, hx, hb⟩, c⟩
        · rintro (c | ⟨px, py, ⟨rfl, rfl, -⟩, c⟩)
          · exact .inl c
          · exact .inr c
      · exact ⟨fun _ => .inr ⟨xx, yy, rfl, rfl, hx, hb⟩, fun _ => rfl⟩
    · exact (Toggles.refl d).congr (by simp_all)

/-- The set bits of the first `c` columns of a sprite row at column `x0`, display row `yy`. -/
def columnPixels (x0 yy : Nat) (row : Byte) (c : Nat) : Pixels := fun px py =>
  py = yy ∧ px < 64 ∧ x0 ≤ px ∧ px < x0 + c ∧ row.getLsbD (7 - (px - x0)) = true

theorem drawColumns_toggles (d : Drawing) (x0 : Nat) {yy : Nat} (row : Byte) (c : Nat)
    (hy : yy < 32) : Toggles d (drawColumns d x0 yy row c) (columnPixels x0 yy row c) := by
  induction c with
  | zero => exact (Toggles.refl d).congr fun px py => ⟨False.elim, fun h => by simp only [columnPixels] at h; omega⟩
  | succ c ih =>
    refine (ih.append (drawPixel_toggles _ (row.getLsbD (7 - c)) hy) ?_).congr ?_
    · rintro px py ⟨-, -, -, h, -⟩ ⟨rfl, -⟩
      omega
    · intro px py
      simp only [columnPixels]
      constructor
      · rintro (⟨h1, h2, h3, h4, h5⟩ | ⟨rfl, h1, h2, h3⟩)
        · exact ⟨h1, h2, h3, by omega, h5⟩
        · exact ⟨h1, h2, by omega, by omega, by rwa [Nat.add_sub_cancel_left]⟩
      · rintro ⟨h1, h2, h3, h4, h5⟩
        rcases Nat.lt_or_ge px (x0 + c) with h | h
        · exact .inl ⟨h1, h2, h3, h, h5⟩
        · have e : px = x0 + c := by omega
          subst e
          exact .inr ⟨rfl, h1, h2, by rwa [Nat.add_sub_cancel_left] at h5⟩

/-- The set bits of a sprite whose rows start at display row `yy` (R182, R185). -/
def rowPixels (x0 yy : Nat) (rows : List Byte) : Pixels := fun px py =>
  py < 32 ∧ px < 64 ∧ x0 ≤ px ∧ px < x0 + 8 ∧ yy ≤ py ∧
    ∃ h : py - yy < rows.length, rows[py - yy].getLsbD (7 - (px - x0)) = true

/-- Everything the draw does to the plane. -/
theorem drawRows_toggles (d : Drawing) (x0 yy : Nat) (rows : List Byte) :
    Toggles d (drawRows d x0 yy rows) (rowPixels x0 yy rows) := by
  induction rows generalizing d yy with
  | nil => exact (Toggles.refl d).congr (by simp [rowPixels])
  | cons row rows ih =>
    unfold drawRows
    split
    · refine (Toggles.refl d).congr fun px py => ?_
      simp only [rowPixels, false_iff]
      rintro ⟨h1, -, -, -, h2, -⟩
      omega
    · have hy : yy < 32 := by omega
      refine ((drawColumns_toggles d x0 row 8 hy).append (ih _ (yy + 1)) ?_).congr ?_
      · rintro px py ⟨rfl, -⟩ ⟨-, -, -, -, h, -⟩
        omega
      · intro px py
        simp only [columnPixels, rowPixels]
        constructor
        · rintro (⟨rfl, h1, h2, h3, h4⟩ | ⟨h1, h2, h3, h4, h5, h6, h7⟩)
          · exact ⟨hy, h1, h2, h3, le_refl _, by simp, by simpa using h4⟩
          · have e : py - yy = py - (yy + 1) + 1 := by omega
            refine ⟨h1, h2, h3, h4, by omega, by simp only [List.length_cons]; omega, ?_⟩
            simpa [e] using h7
        · rintro ⟨h1, h2, h3, h4, h5, h6, h7⟩
          rcases Nat.eq_or_lt_of_le h5 with e | h
          · subst e
            exact .inl ⟨rfl, h2, h3, h4, by simpa using h7⟩
          · have e : py - yy = py - (yy + 1) + 1 := by omega
            simp only [List.length_cons] at h6
            refine .inr ⟨h1, h2, h3, h4, by omega, by omega, ?_⟩
            simpa [e] using h7

/-- An all-dark plane. -/
@[simp] theorem pixel_darkPlane (px py : Nat) : pixel darkPlane px py = false := by
  unfold pixel darkPlane
  split <;> simp

/-- Planes with the same 2048 pixels are the same plane. -/
theorem plane_ext {p q : Plane}
    (h : ∀ px py, px < 64 → py < 32 → pixel p px py = pixel q px py) : p = q := by
  refine Vector.ext fun y hy => BitVec.eq_of_getLsbD_eq fun x hx => ?_
  have := h x y hx hy
  unfold pixel at this
  rwa [dif_pos hy, dif_pos hy] at this

end Sys2Proof.Machine
end

