-- ==== Sys2Proof/Laws/Memory.lean ====
section
/-! SUPPORT. Memory: a read after a write, blocks of bytes, the canonical form and that every
operation keeps it, and that it makes memories with equal bytes equal lists. -/
namespace Sys2Proof.Machine

/-! ### Canonical lists -/

@[simp] theorem Memory.wfFrom_cons (lo a : Nat) (v : Byte) (m : Memory) :
    Memory.wfFrom lo ((a, v) :: m) = true ↔
      lo ≤ a ∧ a < memSize ∧ v ≠ unlistedByte ∧ Memory.wfFrom (a + 1) m = true := by
  simp [Memory.wfFrom, and_assoc]

theorem Memory.read_cons (a b : Nat) (u : Byte) (m : Memory) :
    Memory.read ((b, u) :: m) a = if a = b then u else m.read a := rfl

/-- A canonical list that starts at `lo` lists nothing below. -/
theorem Memory.read_below {m : Memory} {lo k : Nat} (h : m.wfFrom lo = true) (hk : k < lo) :
    m.read k = unlistedByte := by
  induction m generalizing lo with
  | nil => rfl
  | cons c m ih =>
    obtain ⟨a, v⟩ := c
    rw [Memory.wfFrom_cons] at h
    rw [Memory.read_cons, if_neg (by omega)]
    exact ih h.2.2.2 (by omega)

/-- Nothing is listed at or above the end of memory. -/
theorem Memory.read_outside {m : Memory} {lo k : Nat} (h : m.wfFrom lo = true) (hk : memSize ≤ k) :
    m.read k = unlistedByte := by
  induction m generalizing lo with
  | nil => rfl
  | cons c m ih =>
    obtain ⟨a, v⟩ := c
    rw [Memory.wfFrom_cons] at h
    rw [Memory.read_cons, if_neg (by omega)]
    exact ih h.2.2.2

theorem Memory.wfFrom_mono {m : Memory} {lo lo' : Nat} (h : m.wfFrom lo = true) (hl : lo' ≤ lo) :
    m.wfFrom lo' = true := by
  cases m with
  | nil => rfl
  | cons c m =>
    obtain ⟨a, v⟩ := c
    rw [Memory.wfFrom_cons] at h ⊢
    exact ⟨by omega, h.2⟩

/-! ### One write -/

theorem Memory.put_wfFrom {m : Memory} {lo a : Nat} (v : Byte) (h : m.wfFrom lo = true)
    (hlo : lo ≤ a) (ha : a < memSize) : (m.put a v).wfFrom lo = true := by
  induction m generalizing lo with
  | nil => unfold Memory.put; split <;> simp_all [Memory.wfFrom]
  | cons c m ih =>
    obtain ⟨b, u⟩ := c
    have h' := (Memory.wfFrom_cons ..).1 h
    unfold Memory.put
    split
    · split
      · exact h
      · exact (Memory.wfFrom_cons ..).2
          ⟨hlo, ha, ‹_›, (Memory.wfFrom_cons ..).2 ⟨by omega, h'.2⟩⟩
    · split
      · split
        · exact Memory.wfFrom_mono h'.2.2.2 (by omega)
        · subst b
          exact (Memory.wfFrom_cons ..).2 ⟨hlo, ha, ‹_›, h'.2.2.2⟩
      · exact (Memory.wfFrom_cons ..).2 ⟨h'.1, h'.2.1, h'.2.2.1, ih h'.2.2.2 (by omega)⟩

theorem Memory.read_put_same {m : Memory} {lo : Nat} (a : Nat) (v : Byte)
    (h : m.wfFrom lo = true) : (m.put a v).read a = v := by
  induction m generalizing lo with
  | nil => unfold Memory.put; split <;> simp_all [Memory.read]
  | cons c m ih =>
    obtain ⟨b, u⟩ := c
    have h' := (Memory.wfFrom_cons ..).1 h
    unfold Memory.put
    split
    · split
      · subst v
        rw [Memory.read_cons, if_neg (by omega)]
        exact Memory.read_below h'.2.2.2 (by omega)
      · rw [Memory.read_cons, if_pos rfl]
    · split
      · split
        · subst v
          exact Memory.read_below h'.2.2.2 (by omega)
        · rw [Memory.read_cons, if_pos rfl]
      · rw [Memory.read_cons, if_neg (by omega)]
        exact ih h'.2.2.2

/-- A write leaves every other byte alone, in any list. -/
theorem Memory.read_put_other (m : Memory) {a b : Nat} (v : Byte) (h : b ≠ a) :
    (m.put a v).read b = m.read b := by
  induction m with
  | nil => unfold Memory.put; split <;> simp [Memory.read, h]
  | cons c m ih =>
    obtain ⟨d, u⟩ := c
    unfold Memory.put
    split
    · split
      · rfl
      · rw [Memory.read_cons, if_neg h]
    · split
      · subst d
        split <;> simp [Memory.read_cons, h]
      · rw [Memory.read_cons, Memory.read_cons, ih]

theorem Memory.write_wf {m : Memory} (a : Nat) (v : Byte) (h : m.wf = true) :
    (m.write a v).wf = true := by
  unfold Memory.write
  split
  · exact Memory.put_wfFrom v h (Nat.zero_le a) ‹_›
  · exact h

theorem Memory.read_write_same {m : Memory} {a : Nat} (v : Byte) (h : m.wf = true)
    (ha : a < memSize) : (m.write a v).read a = v := by
  rw [Memory.write, if_pos ha]
  exact Memory.read_put_same a v h

theorem Memory.read_write_other (m : Memory) {a b : Nat} (v : Byte) (h : b ≠ a) :
    (m.write a v).read b = m.read b := by
  unfold Memory.write
  split
  · exact Memory.read_put_other m v h
  · rfl

/-! ### Blocks -/

theorem Memory.writeBytes_wf {m : Memory} (a : Nat) (bs : List Byte) (h : m.wf = true) :
    (m.writeBytes a bs).wf = true := by
  induction bs generalizing m a with
  | nil => exact h
  | cons b bs ih => exact ih (a + 1) (Memory.write_wf a b h)

/-- A byte below or above the block is as it was. -/
theorem Memory.read_writeBytes_other (m : Memory) {a k : Nat} (bs : List Byte)
    (h : ¬ (a ≤ k ∧ k < a + bs.length)) : (m.writeBytes a bs).read k = m.read k := by
  induction bs generalizing m a with
  | nil => rfl
  | cons b bs ih =>
    simp only [List.length_cons] at h
    rw [Memory.writeBytes, ih (m.write a b) (by omega), Memory.read_write_other m b (by omega)]

/-- Byte k of the block, where the block lies inside memory. -/
theorem Memory.read_writeBytes_inside {m : Memory} {a k : Nat} {bs : List Byte} (hw : m.wf = true)
    (h : k < bs.length) (hm : a + bs.length ≤ memSize) :
    (m.writeBytes a bs).read (a + k) = bs[k] := by
  induction bs generalizing m a k with
  | nil => simp at h
  | cons b bs ih =>
    simp only [List.length_cons] at h hm
    rw [Memory.writeBytes]
    cases k with
    | zero =>
      rw [Memory.read_writeBytes_other _ _ (by omega)]
      exact Memory.read_write_same b hw (by omega)
    | succ k =>
      have := ih (m := m.write a b) (a := a + 1) (k := k) (Memory.write_wf a b hw)
        (by omega) (by omega)
      rwa [show a + 1 + k = a + (k + 1) by omega] at this

@[simp] theorem Memory.readBytes_length (m : Memory) (a n : Nat) :
    (m.readBytes a n).length = n := by
  induction n generalizing a with
  | zero => rfl
  | succ n ih => simp [Memory.readBytes, ih]

theorem Memory.readBytes_getElem (m : Memory) (a n k : Nat) (h : k < (m.readBytes a n).length) :
    (m.readBytes a n)[k] = m.read (a + k) := by
  induction n generalizing a k with
  | zero => simp [Memory.readBytes] at h
  | succ n ih =>
    cases k with
    | zero => rfl
    | succ k =>
      simp only [Memory.readBytes, List.getElem_cons_succ]
      rw [ih]
      congr 1
      omega

/-! ### Equal bytes, equal lists -/

theorem Memory.ext_from {m n : Memory} {lo : Nat} (hm : m.wfFrom lo = true)
    (hn : n.wfFrom lo = true) (h : ∀ a, m.read a = n.read a) : m = n := by
  induction m generalizing n lo with
  | nil =>
    cases n with
    | nil => rfl
    | cons c n =>
      obtain ⟨a, v⟩ := c
      have := h a
      rw [Memory.read_cons, if_pos rfl] at this
      exact absurd this.symm ((Memory.wfFrom_cons ..).1 hn).2.2.1
  | cons c m ih =>
    obtain ⟨a, v⟩ := c
    have hm' := (Memory.wfFrom_cons ..).1 hm
    cases n with
    | nil =>
      have := h a
      rw [Memory.read_cons, if_pos rfl] at this
      exact absurd this hm'.2.2.1
    | cons d n =>
      obtain ⟨b, u⟩ := d
      have hn' := (Memory.wfFrom_cons ..).1 hn
      have ha := h a
      have hb := h b
      rw [Memory.read_cons, if_pos rfl, Memory.read_cons] at ha
      rw [Memory.read_cons, Memory.read_cons, if_pos rfl] at hb
      have hab : a = b := by
        by_contra hne
        rw [if_neg hne] at ha
        rw [if_neg (fun e => hne e.symm)] at hb
        rcases Nat.lt_or_ge a b with hlt | hge
        · rw [Memory.read_below hn'.2.2.2 (by omega)] at ha
          exact hm'.2.2.1 ha
        · rw [Memory.read_below hm'.2.2.2 (by omega)] at hb
          exact hn'.2.2.1 hb.symm
      subst b
      rw [if_pos rfl] at ha
      subst u
      congr 1
      refine ih hm'.2.2.2 hn'.2.2.2 fun k => ?_
      by_cases hk : k = a
      · subst k
        rw [Memory.read_below hm'.2.2.2 (by omega), Memory.read_below hn'.2.2.2 (by omega)]
      · have := h k
        rwa [Memory.read_cons, Memory.read_cons, if_neg hk, if_neg hk] at this

/-- The canonical form is canonical: memories that hold the same bytes are the same list. -/
theorem Memory.ext_of_wf {m n : Memory} (hm : m.wf = true) (hn : n.wf = true)
    (h : ∀ a, m.read a = n.read a) : m = n := Memory.ext_from hm hn h

/-! ### After RESET -/

theorem Memory.atReset_wf (c : Config) : (Memory.atReset c).wf = true := by
  unfold Memory.atReset
  split
  · rfl
  · exact Memory.writeBytes_wf _ _ rfl

/-- Outside the font area memory is zero after RESET. -/
theorem Memory.read_atReset_outside (c : Config) {a : Nat}
    (h : ¬ (c.fontBase.val ≤ a ∧ a < c.fontBase.val + 80)) :
    (Memory.atReset c).read a = 0x00#8 := by
  unfold Memory.atReset
  split
  · rfl
  · rw [Memory.read_writeBytes_other _ _ (by simpa using h)]
    rfl

/-- The font area after RESET. -/
theorem Memory.read_atReset_font (c : Config) (k : Fin 80) :
    (Memory.atReset c).read (c.fontBase.val + k.val) =
      match c.fontData with
      | none => 0x00#8
      | some glyphs => glyphs[k] := by
  unfold Memory.atReset
  have hk := k.isLt
  have hb := c.fontBase.isLt
  cases c.fontData with
  | none => rfl
  | some glyphs =>
    rw [Memory.read_writeBytes_inside (k := k.val) rfl (by simp) (by simp [memSize]; omega)]
    simp

end Sys2Proof.Machine
end

