-- ==== Sys2Proof/Laws/State.lean ====
section
/-! SUPPORT. One lemma per field per update of the state, so that no proof unfolds a record update,
and how a general register reads after a write. -/
namespace Sys2Proof.Machine

variable (s : State)

/-! ### setReg -/
@[simp] theorem State.setReg_cfg (x : Reg) (b : Byte) : (s.setReg x b).cfg = s.cfg := rfl
@[simp] theorem State.setReg_v (x : Reg) (b : Byte) : (s.setReg x b).v = s.v.set x.toNat b x.isLt := rfl
@[simp] theorem State.setReg_i (x : Reg) (b : Byte) : (s.setReg x b).i = s.i := rfl
@[simp] theorem State.setReg_pc (x : Reg) (b : Byte) : (s.setReg x b).pc = s.pc := rfl
@[simp] theorem State.setReg_stack (x : Reg) (b : Byte) : (s.setReg x b).stack = s.stack := rfl
@[simp] theorem State.setReg_sp (x : Reg) (b : Byte) : (s.setReg x b).sp = s.sp := rfl
@[simp] theorem State.setReg_dt (x : Reg) (b : Byte) : (s.setReg x b).dt = s.dt := rfl
@[simp] theorem State.setReg_st (x : Reg) (b : Byte) : (s.setReg x b).st = s.st := rfl
@[simp] theorem State.setReg_fb (x : Reg) (b : Byte) : (s.setReg x b).fb = s.fb := rfl
@[simp] theorem State.setReg_redraw (x : Reg) (b : Byte) : (s.setReg x b).redraw = s.redraw := rfl
@[simp] theorem State.setReg_mem (x : Reg) (b : Byte) : (s.setReg x b).mem = s.mem := rfl
@[simp] theorem State.setReg_fault (x : Reg) (b : Byte) : (s.setReg x b).fault = s.fault := rfl

/-! ### setI -/
@[simp] theorem State.setI_cfg (a : Word) : (s.setI a).cfg = s.cfg := rfl
@[simp] theorem State.setI_v (a : Word) : (s.setI a).v = s.v := rfl
@[simp] theorem State.setI_i (a : Word) : (s.setI a).i = a := rfl
@[simp] theorem State.setI_pc (a : Word) : (s.setI a).pc = s.pc := rfl
@[simp] theorem State.setI_stack (a : Word) : (s.setI a).stack = s.stack := rfl
@[simp] theorem State.setI_sp (a : Word) : (s.setI a).sp = s.sp := rfl
@[simp] theorem State.setI_dt (a : Word) : (s.setI a).dt = s.dt := rfl
@[simp] theorem State.setI_st (a : Word) : (s.setI a).st = s.st := rfl
@[simp] theorem State.setI_fb (a : Word) : (s.setI a).fb = s.fb := rfl
@[simp] theorem State.setI_redraw (a : Word) : (s.setI a).redraw = s.redraw := rfl
@[simp] theorem State.setI_mem (a : Word) : (s.setI a).mem = s.mem := rfl
@[simp] theorem State.setI_fault (a : Word) : (s.setI a).fault = s.fault := rfl
@[simp] theorem State.setI_reg (a : Word) (r : Reg) : (s.setI a).reg r = s.reg r := rfl

/-! ### setPc -/
@[simp] theorem State.setPc_cfg (a : Word) : (s.setPc a).cfg = s.cfg := rfl
@[simp] theorem State.setPc_v (a : Word) : (s.setPc a).v = s.v := rfl
@[simp] theorem State.setPc_i (a : Word) : (s.setPc a).i = s.i := rfl
@[simp] theorem State.setPc_pc (a : Word) : (s.setPc a).pc = a := rfl
@[simp] theorem State.setPc_stack (a : Word) : (s.setPc a).stack = s.stack := rfl
@[simp] theorem State.setPc_sp (a : Word) : (s.setPc a).sp = s.sp := rfl
@[simp] theorem State.setPc_dt (a : Word) : (s.setPc a).dt = s.dt := rfl
@[simp] theorem State.setPc_st (a : Word) : (s.setPc a).st = s.st := rfl
@[simp] theorem State.setPc_fb (a : Word) : (s.setPc a).fb = s.fb := rfl
@[simp] theorem State.setPc_redraw (a : Word) : (s.setPc a).redraw = s.redraw := rfl
@[simp] theorem State.setPc_mem (a : Word) : (s.setPc a).mem = s.mem := rfl
@[simp] theorem State.setPc_fault (a : Word) : (s.setPc a).fault = s.fault := rfl
@[simp] theorem State.setPc_reg (a : Word) (r : Reg) : (s.setPc a).reg r = s.reg r := rfl

/-! ### advance -/
@[simp] theorem State.advance_cfg : s.advance.cfg = s.cfg := rfl
@[simp] theorem State.advance_v : s.advance.v = s.v := rfl
@[simp] theorem State.advance_i : s.advance.i = s.i := rfl
@[simp] theorem State.advance_pc : s.advance.pc = s.pc + 2#16 := rfl
@[simp] theorem State.advance_stack : s.advance.stack = s.stack := rfl
@[simp] theorem State.advance_sp : s.advance.sp = s.sp := rfl
@[simp] theorem State.advance_dt : s.advance.dt = s.dt := rfl
@[simp] theorem State.advance_st : s.advance.st = s.st := rfl
@[simp] theorem State.advance_fb : s.advance.fb = s.fb := rfl
@[simp] theorem State.advance_redraw : s.advance.redraw = s.redraw := rfl
@[simp] theorem State.advance_mem : s.advance.mem = s.mem := rfl
@[simp] theorem State.advance_fault : s.advance.fault = s.fault := rfl
@[simp] theorem State.advance_reg (r : Reg) : s.advance.reg r = s.reg r := rfl

/-! ### setDt -/
@[simp] theorem State.setDt_cfg (b : Byte) : (s.setDt b).cfg = s.cfg := rfl
@[simp] theorem State.setDt_v (b : Byte) : (s.setDt b).v = s.v := rfl
@[simp] theorem State.setDt_i (b : Byte) : (s.setDt b).i = s.i := rfl
@[simp] theorem State.setDt_pc (b : Byte) : (s.setDt b).pc = s.pc := rfl
@[simp] theorem State.setDt_stack (b : Byte) : (s.setDt b).stack = s.stack := rfl
@[simp] theorem State.setDt_sp (b : Byte) : (s.setDt b).sp = s.sp := rfl
@[simp] theorem State.setDt_dt (b : Byte) : (s.setDt b).dt = b := rfl
@[simp] theorem State.setDt_st (b : Byte) : (s.setDt b).st = s.st := rfl
@[simp] theorem State.setDt_fb (b : Byte) : (s.setDt b).fb = s.fb := rfl
@[simp] theorem State.setDt_redraw (b : Byte) : (s.setDt b).redraw = s.redraw := rfl
@[simp] theorem State.setDt_mem (b : Byte) : (s.setDt b).mem = s.mem := rfl
@[simp] theorem State.setDt_fault (b : Byte) : (s.setDt b).fault = s.fault := rfl
@[simp] theorem State.setDt_reg (b : Byte) (r : Reg) : (s.setDt b).reg r = s.reg r := rfl

/-! ### setSt -/
@[simp] theorem State.setSt_cfg (b : Byte) : (s.setSt b).cfg = s.cfg := rfl
@[simp] theorem State.setSt_v (b : Byte) : (s.setSt b).v = s.v := rfl
@[simp] theorem State.setSt_i (b : Byte) : (s.setSt b).i = s.i := rfl
@[simp] theorem State.setSt_pc (b : Byte) : (s.setSt b).pc = s.pc := rfl
@[simp] theorem State.setSt_stack (b : Byte) : (s.setSt b).stack = s.stack := rfl
@[simp] theorem State.setSt_sp (b : Byte) : (s.setSt b).sp = s.sp := rfl
@[simp] theorem State.setSt_dt (b : Byte) : (s.setSt b).dt = s.dt := rfl
@[simp] theorem State.setSt_st (b : Byte) : (s.setSt b).st = b := rfl
@[simp] theorem State.setSt_fb (b : Byte) : (s.setSt b).fb = s.fb := rfl
@[simp] theorem State.setSt_redraw (b : Byte) : (s.setSt b).redraw = s.redraw := rfl
@[simp] theorem State.setSt_mem (b : Byte) : (s.setSt b).mem = s.mem := rfl
@[simp] theorem State.setSt_fault (b : Byte) : (s.setSt b).fault = s.fault := rfl
@[simp] theorem State.setSt_reg (b : Byte) (r : Reg) : (s.setSt b).reg r = s.reg r := rfl

/-! ### markRedraw -/
@[simp] theorem State.markRedraw_cfg (c : Bool) : (s.markRedraw c).cfg = s.cfg := rfl
@[simp] theorem State.markRedraw_v (c : Bool) : (s.markRedraw c).v = s.v := rfl
@[simp] theorem State.markRedraw_i (c : Bool) : (s.markRedraw c).i = s.i := rfl
@[simp] theorem State.markRedraw_pc (c : Bool) : (s.markRedraw c).pc = s.pc := rfl
@[simp] theorem State.markRedraw_stack (c : Bool) : (s.markRedraw c).stack = s.stack := rfl
@[simp] theorem State.markRedraw_sp (c : Bool) : (s.markRedraw c).sp = s.sp := rfl
@[simp] theorem State.markRedraw_dt (c : Bool) : (s.markRedraw c).dt = s.dt := rfl
@[simp] theorem State.markRedraw_st (c : Bool) : (s.markRedraw c).st = s.st := rfl
@[simp] theorem State.markRedraw_fb (c : Bool) : (s.markRedraw c).fb = s.fb := rfl
@[simp] theorem State.markRedraw_redraw (c : Bool) : (s.markRedraw c).redraw = (s.redraw || c) := rfl
@[simp] theorem State.markRedraw_mem (c : Bool) : (s.markRedraw c).mem = s.mem := rfl
@[simp] theorem State.markRedraw_fault (c : Bool) : (s.markRedraw c).fault = s.fault := rfl
@[simp] theorem State.markRedraw_reg (c : Bool) (r : Reg) : (s.markRedraw c).reg r = s.reg r := rfl

/-! ### setFb -/
@[simp] theorem State.setFb_cfg (p : Plane) : (s.setFb p).cfg = s.cfg := rfl
@[simp] theorem State.setFb_v (p : Plane) : (s.setFb p).v = s.v := rfl
@[simp] theorem State.setFb_i (p : Plane) : (s.setFb p).i = s.i := rfl
@[simp] theorem State.setFb_pc (p : Plane) : (s.setFb p).pc = s.pc := rfl
@[simp] theorem State.setFb_stack (p : Plane) : (s.setFb p).stack = s.stack := rfl
@[simp] theorem State.setFb_sp (p : Plane) : (s.setFb p).sp = s.sp := rfl
@[simp] theorem State.setFb_dt (p : Plane) : (s.setFb p).dt = s.dt := rfl
@[simp] theorem State.setFb_st (p : Plane) : (s.setFb p).st = s.st := rfl
@[simp] theorem State.setFb_fb (p : Plane) : (s.setFb p).fb = p := rfl
@[simp] theorem State.setFb_redraw (p : Plane) : (s.setFb p).redraw = s.redraw := rfl
@[simp] theorem State.setFb_mem (p : Plane) : (s.setFb p).mem = s.mem := rfl
@[simp] theorem State.setFb_fault (p : Plane) : (s.setFb p).fault = s.fault := rfl
@[simp] theorem State.setFb_reg (p : Plane) (r : Reg) : (s.setFb p).reg r = s.reg r := rfl

/-! ### raise -/
@[simp] theorem State.raise_cfg (c : FaultCause) : (s.raise c).cfg = s.cfg := rfl
@[simp] theorem State.raise_v (c : FaultCause) : (s.raise c).v = s.v := rfl
@[simp] theorem State.raise_i (c : FaultCause) : (s.raise c).i = s.i := rfl
@[simp] theorem State.raise_pc (c : FaultCause) : (s.raise c).pc = s.pc := rfl
@[simp] theorem State.raise_stack (c : FaultCause) : (s.raise c).stack = s.stack := rfl
@[simp] theorem State.raise_sp (c : FaultCause) : (s.raise c).sp = s.sp := rfl
@[simp] theorem State.raise_dt (c : FaultCause) : (s.raise c).dt = s.dt := rfl
@[simp] theorem State.raise_st (c : FaultCause) : (s.raise c).st = s.st := rfl
@[simp] theorem State.raise_fb (c : FaultCause) : (s.raise c).fb = s.fb := rfl
@[simp] theorem State.raise_redraw (c : FaultCause) : (s.raise c).redraw = s.redraw := rfl
@[simp] theorem State.raise_mem (c : FaultCause) : (s.raise c).mem = s.mem := rfl
@[simp] theorem State.raise_fault (c : FaultCause) : (s.raise c).fault = some ⟨c, s.pc⟩ := rfl
@[simp] theorem State.raise_reg (c : FaultCause) (r : Reg) : (s.raise c).reg r = s.reg r := rfl

/-! ### writeMem -/
@[simp] theorem State.writeMem_cfg (a : Nat) (b : Byte) : (s.writeMem a b).cfg = s.cfg := rfl
@[simp] theorem State.writeMem_v (a : Nat) (b : Byte) : (s.writeMem a b).v = s.v := rfl
@[simp] theorem State.writeMem_i (a : Nat) (b : Byte) : (s.writeMem a b).i = s.i := rfl
@[simp] theorem State.writeMem_pc (a : Nat) (b : Byte) : (s.writeMem a b).pc = s.pc := rfl
@[simp] theorem State.writeMem_stack (a : Nat) (b : Byte) : (s.writeMem a b).stack = s.stack := rfl
@[simp] theorem State.writeMem_sp (a : Nat) (b : Byte) : (s.writeMem a b).sp = s.sp := rfl
@[simp] theorem State.writeMem_dt (a : Nat) (b : Byte) : (s.writeMem a b).dt = s.dt := rfl
@[simp] theorem State.writeMem_st (a : Nat) (b : Byte) : (s.writeMem a b).st = s.st := rfl
@[simp] theorem State.writeMem_fb (a : Nat) (b : Byte) : (s.writeMem a b).fb = s.fb := rfl
@[simp] theorem State.writeMem_redraw (a : Nat) (b : Byte) : (s.writeMem a b).redraw = s.redraw := rfl
@[simp] theorem State.writeMem_mem (a : Nat) (b : Byte) : (s.writeMem a b).mem = s.mem.write a b := rfl
@[simp] theorem State.writeMem_fault (a : Nat) (b : Byte) : (s.writeMem a b).fault = s.fault := rfl
@[simp] theorem State.writeMem_reg (a : Nat) (b : Byte) (r : Reg) : (s.writeMem a b).reg r = s.reg r := rfl

/-! ### Reading a register after writing one -/

@[simp] theorem State.reg_setReg_same (x : Reg) (b : Byte) : (s.setReg x b).reg x = b := by
  simp [State.reg, State.setReg]

theorem State.reg_setReg_other {x r : Reg} (b : Byte) (h : r ≠ x) : (s.setReg x b).reg r = s.reg r := by
  have h' : x.toNat ≠ r.toNat := fun e => h (BitVec.eq_of_toNat_eq e.symm)
  simp [State.reg, State.setReg, h']

/-- Every register after a write, at once. -/
theorem State.reg_setReg (x r : Reg) (b : Byte) :
    (s.setReg x b).reg r = if r = x then b else s.reg r := by
  by_cases h : r = x
  · subst h; simp
  · simp [h, State.reg_setReg_other]

/-! ### Conditional skips -/

@[simp] theorem State.skipIf_pc (c : Bool) :
    (s.skipIf c).pc = if c then s.pc + 4#16 else s.pc + 2#16 := by
  cases c
  · rfl
  · show s.pc + 2#16 + 2#16 = s.pc + 4#16
    rw [BitVec.add_assoc]; rfl

@[simp] theorem State.skipIf_cfg (c : Bool) : (s.skipIf c).cfg = s.cfg := by cases c <;> rfl
@[simp] theorem State.skipIf_v (c : Bool) : (s.skipIf c).v = s.v := by cases c <;> rfl
@[simp] theorem State.skipIf_i (c : Bool) : (s.skipIf c).i = s.i := by cases c <;> rfl
@[simp] theorem State.skipIf_stack (c : Bool) : (s.skipIf c).stack = s.stack := by cases c <;> rfl
@[simp] theorem State.skipIf_sp (c : Bool) : (s.skipIf c).sp = s.sp := by cases c <;> rfl
@[simp] theorem State.skipIf_dt (c : Bool) : (s.skipIf c).dt = s.dt := by cases c <;> rfl
@[simp] theorem State.skipIf_st (c : Bool) : (s.skipIf c).st = s.st := by cases c <;> rfl
@[simp] theorem State.skipIf_fb (c : Bool) : (s.skipIf c).fb = s.fb := by cases c <;> rfl
@[simp] theorem State.skipIf_redraw (c : Bool) : (s.skipIf c).redraw = s.redraw := by cases c <;> rfl
@[simp] theorem State.skipIf_mem (c : Bool) : (s.skipIf c).mem = s.mem := by cases c <;> rfl
@[simp] theorem State.skipIf_fault (c : Bool) : (s.skipIf c).fault = s.fault := by cases c <;> rfl
@[simp] theorem State.skipIf_reg (c : Bool) (r : Reg) : (s.skipIf c).reg r = s.reg r := by cases c <;> rfl

/-! ### Results with and without a flag -/

@[simp] theorem State.plainResult_cfg (x : Reg) (b : Byte) : (s.plainResult x b).cfg = s.cfg := rfl
@[simp] theorem State.plainResult_i (x : Reg) (b : Byte) : (s.plainResult x b).i = s.i := rfl
@[simp] theorem State.plainResult_pc (x : Reg) (b : Byte) : (s.plainResult x b).pc = s.pc + 2#16 := rfl
@[simp] theorem State.plainResult_stack (x : Reg) (b : Byte) : (s.plainResult x b).stack = s.stack := rfl
@[simp] theorem State.plainResult_sp (x : Reg) (b : Byte) : (s.plainResult x b).sp = s.sp := rfl
@[simp] theorem State.plainResult_dt (x : Reg) (b : Byte) : (s.plainResult x b).dt = s.dt := rfl
@[simp] theorem State.plainResult_st (x : Reg) (b : Byte) : (s.plainResult x b).st = s.st := rfl
@[simp] theorem State.plainResult_fb (x : Reg) (b : Byte) : (s.plainResult x b).fb = s.fb := rfl
@[simp] theorem State.plainResult_redraw (x : Reg) (b : Byte) : (s.plainResult x b).redraw = s.redraw := rfl
@[simp] theorem State.plainResult_mem (x : Reg) (b : Byte) : (s.plainResult x b).mem = s.mem := rfl
@[simp] theorem State.plainResult_fault (x : Reg) (b : Byte) : (s.plainResult x b).fault = s.fault := rfl
@[simp] theorem State.flaggedResult_cfg (x : Reg) (b : Byte) (f : Bool) : (s.flaggedResult x b f).cfg = s.cfg := rfl
@[simp] theorem State.flaggedResult_i (x : Reg) (b : Byte) (f : Bool) : (s.flaggedResult x b f).i = s.i := rfl
@[simp] theorem State.flaggedResult_pc (x : Reg) (b : Byte) (f : Bool) : (s.flaggedResult x b f).pc = s.pc + 2#16 := rfl
@[simp] theorem State.flaggedResult_stack (x : Reg) (b : Byte) (f : Bool) : (s.flaggedResult x b f).stack = s.stack := rfl
@[simp] theorem State.flaggedResult_sp (x : Reg) (b : Byte) (f : Bool) : (s.flaggedResult x b f).sp = s.sp := rfl
@[simp] theorem State.flaggedResult_dt (x : Reg) (b : Byte) (f : Bool) : (s.flaggedResult x b f).dt = s.dt := rfl
@[simp] theorem State.flaggedResult_st (x : Reg) (b : Byte) (f : Bool) : (s.flaggedResult x b f).st = s.st := rfl
@[simp] theorem State.flaggedResult_fb (x : Reg) (b : Byte) (f : Bool) : (s.flaggedResult x b f).fb = s.fb := rfl
@[simp] theorem State.flaggedResult_redraw (x : Reg) (b : Byte) (f : Bool) : (s.flaggedResult x b f).redraw = s.redraw := rfl
@[simp] theorem State.flaggedResult_mem (x : Reg) (b : Byte) (f : Bool) : (s.flaggedResult x b f).mem = s.mem := rfl
@[simp] theorem State.flaggedResult_fault (x : Reg) (b : Byte) (f : Bool) : (s.flaggedResult x b f).fault = s.fault := rfl
@[simp] theorem State.setFlag_cfg (f : Bool) : (s.setFlag f).cfg = s.cfg := rfl
@[simp] theorem State.setFlag_i (f : Bool) : (s.setFlag f).i = s.i := rfl
@[simp] theorem State.setFlag_pc (f : Bool) : (s.setFlag f).pc = s.pc := rfl
@[simp] theorem State.setFlag_stack (f : Bool) : (s.setFlag f).stack = s.stack := rfl
@[simp] theorem State.setFlag_sp (f : Bool) : (s.setFlag f).sp = s.sp := rfl
@[simp] theorem State.setFlag_dt (f : Bool) : (s.setFlag f).dt = s.dt := rfl
@[simp] theorem State.setFlag_st (f : Bool) : (s.setFlag f).st = s.st := rfl
@[simp] theorem State.setFlag_fb (f : Bool) : (s.setFlag f).fb = s.fb := rfl
@[simp] theorem State.setFlag_redraw (f : Bool) : (s.setFlag f).redraw = s.redraw := rfl
@[simp] theorem State.setFlag_mem (f : Bool) : (s.setFlag f).mem = s.mem := rfl
@[simp] theorem State.setFlag_fault (f : Bool) : (s.setFlag f).fault = s.fault := rfl

@[simp] theorem State.setFlag_reg_vf (f : Bool) : (s.setFlag f).reg regVF = flagByte f := by
  simp [State.setFlag]

theorem State.setFlag_reg_other (f : Bool) {r : Reg} (h : r ≠ regVF) :
    (s.setFlag f).reg r = s.reg r := State.reg_setReg_other s _ h

theorem State.plainResult_reg (x r : Reg) (b : Byte) :
    (s.plainResult x b).reg r = if r = x then b else s.reg r := State.reg_setReg s x r b

/-- The flag wins over the result when the destination is VF (R133). -/
theorem State.flaggedResult_reg (x r : Reg) (b : Byte) (f : Bool) :
    (s.flaggedResult x b f).reg r =
      if r = regVF then flagByte f else if r = x then b else s.reg r := by
  show ((s.setReg x b).setReg regVF (flagByte f)).reg r = _
  rw [State.reg_setReg, State.reg_setReg]

@[simp] theorem flagByte_toNat (f : Bool) : (flagByte f).toNat = if f then 1 else 0 := by
  cases f <;> rfl

theorem regVF_toNat : regVF.toNat = 15 := rfl

end Sys2Proof.Machine
end

