-- ==== Sys2Proof/Laws/Ops.lean ====
section
/-! SUPPORT. What each shared operation can do, said once: taking a fault, the range check, the call
stack, the memory blocks, fetch. -/
namespace Sys2Proof.Machine

variable (s : State)

/-! ### Taking a fault and the range check -/

@[simp] theorem State.conclude_ok (t : State) : s.conclude (.ok t) = .next t := rfl

@[simp] theorem State.conclude_error (c : FaultCause) : s.conclude (.error c) = .next (s.raise c) :=
  rfl

/-- Whatever the execute phase answers, the STEP ends in a next state: the effect, or the fault. -/
theorem State.conclude_cases (r : Except FaultCause State) :
    (∃ t, r = .ok t ∧ s.conclude r = .next t) ∨
      (∃ c, r = .error c ∧ s.conclude r = .next (s.raise c)) := by
  cases r with
  | ok t => exact .inl ⟨t, rfl, rfl⟩
  | error c => exact .inr ⟨c, rfl, rfl⟩

theorem rangeFault_inside (sub : AccessKind) {base count : Nat}
    (h : count = 0 ∨ base + count ≤ 4096) : rangeFault sub base count = none := by
  rw [rangeFault, if_neg]
  simp only [memSize]
  omega

theorem rangeFault_outside (sub : AccessKind) {base count : Nat} (h0 : 1 ≤ count)
    (h : 4096 < base + count) :
    rangeFault sub base count = some (.boundsError sub (max base 4096)) := by
  rw [rangeFault, if_pos ⟨h0, h⟩]
  rfl

theorem checkRange_inside (sub : AccessKind) {base count : Nat} (t : State)
    (h : count = 0 ∨ base + count ≤ 4096) : checkRange sub base count t = .ok t := by
  rw [checkRange, rangeFault_inside sub h]

theorem checkRange_outside (sub : AccessKind) {base count : Nat} (t : State) (h0 : 1 ≤ count)
    (h : 4096 < base + count) :
    checkRange sub base count t = .error (.boundsError sub (max base 4096)) := by
  rw [checkRange, rangeFault_outside sub h0 h]

/-! ### The call stack -/

theorem State.push_free (a : Word) (h : s.sp.val < 16) :
    s.push a = .ok { s with stack := s.stack.set s.sp.val a h, sp := ⟨s.sp.val + 1, by omega⟩ } := by
  rw [State.push, dif_pos h]

theorem State.push_full (a : Word) (h : s.sp.val = 16) : s.push a = .error .stackOverflow := by
  rw [State.push, dif_neg (by omega)]

theorem State.popToPc_live (h : 0 < s.sp.val) :
    s.popToPc = .ok { s with
      pc := s.stack[s.sp.val - 1]'(by have := s.sp.isLt; omega)
      sp := ⟨s.sp.val - 1, by have := s.sp.isLt; omega⟩ } := by
  rw [State.popToPc, dif_pos h]

theorem State.popToPc_empty (h : s.sp.val = 0) : s.popToPc = .error .stackUnderflow := by
  rw [State.popToPc, dif_neg (by omega)]

/-! ### Memory blocks -/

/-- A stored block touches memory only. -/
theorem State.storeBlock_eq (base n : Nat) :
    s.storeBlock base n = { s with mem := (s.storeBlock base n).mem } := by
  induction n with
  | zero => rfl
  | succ n ih =>
    rw [State.storeBlock, ih]
    rfl

theorem State.storeBlock_reg (base n : Nat) (r : Reg) : (s.storeBlock base n).reg r = s.reg r := by
  rw [State.storeBlock_eq]
  rfl

theorem State.storeBlock_wf (base n : Nat) (h : s.mem.wf = true) :
    (s.storeBlock base n).mem.wf = true := by
  induction n with
  | zero => exact h
  | succ n ih => exact Memory.write_wf _ _ ih

/-- Bytes outside the stored block. -/
theorem State.storeBlock_read_other (base n : Nat) {a : Nat} (h : ¬ (base ≤ a ∧ a < base + n)) :
    (s.storeBlock base n).mem.read a = s.mem.read a := by
  induction n with
  | zero => rfl
  | succ n ih =>
    show (Memory.write _ _ _).read a = _
    rw [Memory.read_write_other _ _ (by omega), ih (by omega)]

/-- Byte k of the stored block is register k. -/
theorem State.storeBlock_read (base n : Nat) {k : Nat} (hw : s.mem.wf = true) (hk : k < n)
    (hb : base + n ≤ 4096) :
    (s.storeBlock base n).mem.read (base + k) = s.reg (BitVec.ofNat 4 k) := by
  induction n with
  | zero => omega
  | succ n ih =>
    show (Memory.write _ _ _).read _ = _
    rcases Nat.lt_or_ge k n with h | h
    · rw [Memory.read_write_other _ _ (by omega), ih h (by omega)]
    · obtain rfl : k = n := by omega
      rw [Memory.read_write_same _ (s.storeBlock_wf base k hw) (by simp only [memSize]; omega),
        State.storeBlock_reg]

/-- A loaded block touches general registers only. -/
theorem State.loadBlock_eq (base n : Nat) :
    s.loadBlock base n = { s with v := (s.loadBlock base n).v } := by
  induction n with
  | zero => rfl
  | succ n ih =>
    rw [State.loadBlock, ih]
    rfl

/-- Register k after a load of the first n registers. -/
theorem State.loadBlock_reg (base n : Nat) (r : Reg) (hn : n ≤ 16) :
    (s.loadBlock base n).reg r =
      if r.toNat < n then s.mem.read (base + r.toNat) else s.reg r := by
  induction n with
  | zero => rfl
  | succ n ih =>
    have hm : (s.loadBlock base n).mem = s.mem := by rw [State.loadBlock_eq]
    rw [State.loadBlock, State.reg_setReg, ih (by omega), hm]
    have hr := r.isLt
    have key : r = BitVec.ofNat 4 n ↔ r.toNat = n := by
      constructor
      · rintro rfl
        simp only [BitVec.toNat_ofNat]
        omega
      · rintro rfl
        simp
    by_cases h : r.toNat = n
    · rw [if_pos (key.2 h), if_pos (by omega), h]
    · rw [if_neg (fun e => h (key.1 e))]
      by_cases h' : r.toNat < n
      · rw [if_pos h', if_pos (by omega)]
      · rw [if_neg h', if_neg (by omega)]

/-! ### Fetch -/

theorem State.fetch_inside (h : s.pc.toNat ≤ 4094) :
    s.fetch = .ok (wordOfBytes (s.mem.read s.pc.toNat) (s.mem.read (s.pc.toNat + 1))) := by
  rw [State.fetch, rangeFault_inside _ (by omega)]

theorem State.fetch_outside (h : 4095 ≤ s.pc.toNat) :
    s.fetch = .error (.boundsError .fetch (max s.pc.toNat 4096)) := by
  rw [State.fetch, rangeFault_outside _ (by omega) (by omega)]

/-- The two bytes of a word make the word again. -/
theorem wordOfBytes_halves (w : Word) : wordOfBytes (highByte w) (lowByte w) = w := by
  refine BitVec.eq_of_getLsbD_eq fun k hk => ?_
  simp only [wordOfBytes, highByte, lowByte, BitVec.getLsbD_append, BitVec.getLsbD_extractLsb']
  by_cases h : k < 8
  · simp [h]
  · simp [h, show k - 8 < 8 by omega, show 8 + (k - 8) = k by omega]

/-- What is laid where the machine fetches is what it fetches. -/
theorem State.fetch_placeWord (w : Word) (hw : s.mem.wf = true) (h : s.pc.toNat ≤ 4094) :
    (s.placeWord w).fetch = .ok w := by
  have b0 : ((s.placeWord w).mem.read s.pc.toNat) = highByte w :=
    Memory.read_writeBytes_inside (k := 0) (bs := wordBytes w) hw (by simp [wordBytes])
      (by simp [wordBytes, memSize]; omega)
  have b1 : ((s.placeWord w).mem.read (s.pc.toNat + 1)) = lowByte w :=
    Memory.read_writeBytes_inside (k := 1) (bs := wordBytes w) hw (by simp [wordBytes])
      (by simp [wordBytes, memSize]; omega)
  have := State.fetch_inside (s.placeWord w) h
  rw [this]
  show Except.ok (wordOfBytes ((s.placeWord w).mem.read s.pc.toNat)
    ((s.placeWord w).mem.read (s.pc.toNat + 1))) = _
  rw [b0, b1, wordOfBytes_halves]

/-! ### Host operations -/

theorem State.hostWrite_inside {a : Nat} (v : Byte) (h : a < 4096) :
    s.hostWrite a v = s.writeMem a v := by
  rw [State.hostWrite, rangeFault_inside _ (by omega)]

theorem State.hostWrite_outside {a : Nat} (v : Byte) (h : 4096 ≤ a) :
    s.hostWrite a v = s.raise (.boundsError .hostWrite a) := by
  rw [State.hostWrite, rangeFault_outside _ (by omega) (by omega), Nat.max_eq_left h]

/-! ### A STEP -/

/-- Everything a STEP from an enabled state can do: the fetch fault, the decode fault, or the
execution of the decoded instruction (R221, R231). -/
theorem step_cases (h : s.fault = none) :
    (4095 ≤ s.pc.toNat ∧ step s = .next (s.raise (.boundsError .fetch (max s.pc.toNat 4096)))) ∨
    (∃ w r, s.pc.toNat ≤ 4094 ∧ s.fetch = .ok w ∧ decodeWord w = .error r ∧
      step s = .next (s.raise (.decodeError w))) ∨
    (∃ w i, s.pc.toNat ≤ 4094 ∧ s.fetch = .ok w ∧ decodeWord w = .ok i ∧ step s = exec i s) := by
  rcases Nat.lt_or_ge s.pc.toNat 4095 with hp | hp
  · have hf := s.fetch_inside (by omega)
    right
    cases hd : decodeWord (wordOfBytes (s.mem.read s.pc.toNat) (s.mem.read (s.pc.toNat + 1))) with
    | error r => exact .inl ⟨_, r, by omega, hf, hd, by simp only [step, h, hf, hd]⟩
    | ok i => exact .inr ⟨_, i, by omega, hf, hd, by simp only [step, h, hf, hd]⟩
  · exact .inl ⟨hp, by simp only [step, h, s.fetch_outside hp]⟩

/-- A STEP whose fetch and decode succeed executes the instruction. -/
theorem step_of_decode {w : Word} {i : Instr} (h : s.fault = none) (hf : s.fetch = .ok w)
    (hd : decodeWord w = .ok i) : step s = exec i s := by
  simp only [step, h, hf, hd]

/-- With the latch set there is no STEP. -/
theorem step_of_fault {r : FaultRecord} (h : s.fault = some r) : step s = .fault (.stopped r) := by
  simp only [step, h]

end Sys2Proof.Machine
end

