-- ==== Sys2Proof/Laws/PerInstr.lean ====
section
/-! SUPPORT. For every instruction: the word its encoding gives selects the instruction's own row of
the opcode table (spec/30_encoding.md R86, `w & mask = match`). -/
namespace Sys2Proof

/-- The canonical word selects the instruction's row. -/
def Laws.RowMatch.Statement (i : Instr) : Prop := (rowOf i).selects (encode i) = true

/-- A format word masked to its family nibble. -/
theorem formAddr_family (a : Nibble) (addr : Addr12) :
    formAddr a addr &&& 0xF000#16 = formAddr a 0#12 := by
  refine BitVec.eq_of_getLsbD_eq fun k hk => ?_
  simp only [BitVec.getLsbD_and, getLsbD_formAddr]
  interval_cases k <;> simp

/-- A two-register word masked to its family and last nibbles. -/
theorem formXyn_family (a : Nibble) (x y : Reg) (d : Nibble) :
    formXyn a x y d &&& 0xF00F#16 = formXyn a 0#4 0#4 d := by
  refine BitVec.eq_of_getLsbD_eq fun k hk => ?_
  simp only [BitVec.getLsbD_and, getLsbD_formXyn]
  interval_cases k <;> simp

/-- A one-register word masked to its family nibble and low byte. -/
theorem formX_family (x : Reg) (low : Byte) : formX x low &&& 0xF0FF#16 = formX 0#4 low := by
  refine BitVec.eq_of_getLsbD_eq fun k hk => ?_
  simp only [formX, BitVec.getLsbD_and, getLsbD_formXkk]
  interval_cases k <;> simp

theorem OpcodeRow.selects_of_eq {r : OpcodeRow} {w : Word} (h : w &&& r.mask = r.pattern) :
    r.selects w = true := by simp [OpcodeRow.selects, h]

theorem Laws.RowMatch.cls : Laws.RowMatch.Statement .cls :=
  rfl

theorem Laws.RowMatch.ret : Laws.RowMatch.Statement .ret :=
  rfl

theorem Laws.RowMatch.jp (addr : Addr12) : Laws.RowMatch.Statement (.jp addr) :=
  OpcodeRow.selects_of_eq (formAddr_family _ _)

theorem Laws.RowMatch.call (addr : Addr12) : Laws.RowMatch.Statement (.call addr) :=
  OpcodeRow.selects_of_eq (formAddr_family _ _)

theorem Laws.RowMatch.seImm (x : Reg) (kk : Byte) : Laws.RowMatch.Statement (.seImm x kk) :=
  OpcodeRow.selects_of_eq (formAddr_family _ _)

theorem Laws.RowMatch.sneImm (x : Reg) (kk : Byte) : Laws.RowMatch.Statement (.sneImm x kk) :=
  OpcodeRow.selects_of_eq (formAddr_family _ _)

theorem Laws.RowMatch.seReg (x y : Reg) : Laws.RowMatch.Statement (.seReg x y) :=
  OpcodeRow.selects_of_eq (formAddr_family _ _)

theorem Laws.RowMatch.ldImm (x : Reg) (kk : Byte) : Laws.RowMatch.Statement (.ldImm x kk) :=
  OpcodeRow.selects_of_eq (formAddr_family _ _)

theorem Laws.RowMatch.addImm (x : Reg) (kk : Byte) : Laws.RowMatch.Statement (.addImm x kk) :=
  OpcodeRow.selects_of_eq (formAddr_family _ _)

theorem Laws.RowMatch.ldReg (x y : Reg) : Laws.RowMatch.Statement (.ldReg x y) :=
  OpcodeRow.selects_of_eq (formXyn_family _ _ _ _)

theorem Laws.RowMatch.orReg (x y : Reg) : Laws.RowMatch.Statement (.orReg x y) :=
  OpcodeRow.selects_of_eq (formXyn_family _ _ _ _)

theorem Laws.RowMatch.andReg (x y : Reg) : Laws.RowMatch.Statement (.andReg x y) :=
  OpcodeRow.selects_of_eq (formXyn_family _ _ _ _)

theorem Laws.RowMatch.xorReg (x y : Reg) : Laws.RowMatch.Statement (.xorReg x y) :=
  OpcodeRow.selects_of_eq (formXyn_family _ _ _ _)

theorem Laws.RowMatch.addReg (x y : Reg) : Laws.RowMatch.Statement (.addReg x y) :=
  OpcodeRow.selects_of_eq (formXyn_family _ _ _ _)

theorem Laws.RowMatch.subReg (x y : Reg) : Laws.RowMatch.Statement (.subReg x y) :=
  OpcodeRow.selects_of_eq (formXyn_family _ _ _ _)

theorem Laws.RowMatch.shr (x : Reg) : Laws.RowMatch.Statement (.shr x) :=
  OpcodeRow.selects_of_eq (formXyn_family _ _ _ _)

theorem Laws.RowMatch.subnReg (x y : Reg) : Laws.RowMatch.Statement (.subnReg x y) :=
  OpcodeRow.selects_of_eq (formXyn_family _ _ _ _)

theorem Laws.RowMatch.shl (x : Reg) : Laws.RowMatch.Statement (.shl x) :=
  OpcodeRow.selects_of_eq (formXyn_family _ _ _ _)

theorem Laws.RowMatch.sneReg (x y : Reg) : Laws.RowMatch.Statement (.sneReg x y) :=
  OpcodeRow.selects_of_eq (formAddr_family _ _)

theorem Laws.RowMatch.ldI (addr : Addr12) : Laws.RowMatch.Statement (.ldI addr) :=
  OpcodeRow.selects_of_eq (formAddr_family _ _)

theorem Laws.RowMatch.drw (x y : Reg) (n : Nibble) : Laws.RowMatch.Statement (.drw x y n) :=
  OpcodeRow.selects_of_eq (formAddr_family _ _)

theorem Laws.RowMatch.ldVxDt (x : Reg) : Laws.RowMatch.Statement (.ldVxDt x) :=
  OpcodeRow.selects_of_eq (formX_family _ _)

theorem Laws.RowMatch.ldDtVx (x : Reg) : Laws.RowMatch.Statement (.ldDtVx x) :=
  OpcodeRow.selects_of_eq (formX_family _ _)

theorem Laws.RowMatch.ldStVx (x : Reg) : Laws.RowMatch.Statement (.ldStVx x) :=
  OpcodeRow.selects_of_eq (formX_family _ _)

theorem Laws.RowMatch.addI (x : Reg) : Laws.RowMatch.Statement (.addI x) :=
  OpcodeRow.selects_of_eq (formX_family _ _)

theorem Laws.RowMatch.ldF (x : Reg) : Laws.RowMatch.Statement (.ldF x) :=
  OpcodeRow.selects_of_eq (formX_family _ _)

theorem Laws.RowMatch.storeRegs (x : Reg) : Laws.RowMatch.Statement (.storeRegs x) :=
  OpcodeRow.selects_of_eq (formX_family _ _)

theorem Laws.RowMatch.loadRegs (x : Reg) : Laws.RowMatch.Statement (.loadRegs x) :=
  OpcodeRow.selects_of_eq (formX_family _ _)

end Sys2Proof
end

