-- ==== Sys2Proof/Tests/Slice0.lean ====
section
/-! SUPPORT. The model's own tests: the ill-formed terms the checks refuse, one word per constructor
written out from its encoding (spec/30_encoding.md R86), vectors of spec/95_test_vectors.md, and for
each statement with hypotheses a state and operands that meet them. -/
namespace Sys2Proof.Tests
open Sys2Proof.Machine

/-! ### Well-formedness (spec/30_encoding.md R83, R84, R95; spec/70_reset_and_hazards.md R262) -/

theorem test_every_operand_is_wellFormed :
    (Instr.drw 0xF#4 0xF#4 0xF#4).wellFormed = true ∧ (Instr.jp 0xFFF#12).wellFormed = true := by
  decide

theorem test_rom_of_3584_bytes_fits : romFits (List.replicate 3584 0x00#8) = true := by
  rw [romFits, List.length_replicate]; decide

/-- Ill-formed: one byte too many. -/
theorem test_rom_of_3585_bytes_refused : romFits (List.replicate 3585 0x00#8) = false := by
  rw [romFits, List.length_replicate]; decide

/-- Ill-formed words, one of each row of R95 (vectors X1 to X9). -/
theorem test_illegal_words_refused :
    [0x0000#16, 0x01E0#16, 0x8128#16, 0x812F#16, 0xBFFF#16, 0xC1FF#16, 0xE09E#16, 0xF00A#16,
      0xF033#16].all (fun w => !legalWord w) = true := by decide

theorem test_one_byte_refused : decodeBytes [0x60#8] = .error .truncated := rfl

/-- A memory that is not canonical, for each check: order, a listed zero, an address past the end. -/
theorem test_memory_checks_refuse :
    Memory.wf [(5, 1#8), (3, 2#8)] = false ∧ Memory.wf [(5, 0#8)] = false ∧
      Memory.wf [(4096, 1#8)] = false ∧ Memory.wf [(3, 2#8), (4095, 1#8)] = true := by decide

/-! ### One word per constructor -/

theorem test_decode_cls : decodeWord 0b0000000011100000#16 = .ok .cls := rfl
theorem test_decode_ret : decodeWord 0b0000000011101110#16 = .ok .ret := rfl
theorem test_decode_jp : decodeWord 0b0001101010111100#16 = .ok (.jp 0xABC#12) := rfl
theorem test_decode_call : decodeWord 0b0010111100000001#16 = .ok (.call 0xF01#12) := rfl
theorem test_decode_seImm : decodeWord 0b0011001101000010#16 = .ok (.seImm 3#4 0x42#8) := rfl
theorem test_decode_sneImm : decodeWord 0b0100001101000010#16 = .ok (.sneImm 3#4 0x42#8) := rfl
theorem test_decode_seReg : decodeWord 0b0101000100100000#16 = .ok (.seReg 1#4 2#4) := rfl
theorem test_decode_ldImm : decodeWord 0b0110000000000101#16 = .ok (.ldImm 0#4 5#8) := rfl
theorem test_decode_addImm : decodeWord 0b0111000000000011#16 = .ok (.addImm 0#4 3#8) := rfl
theorem test_decode_ldReg : decodeWord 0b1000101010110000#16 = .ok (.ldReg 0xA#4 0xB#4) := rfl
theorem test_decode_orReg : decodeWord 0b1000000100100001#16 = .ok (.orReg 1#4 2#4) := rfl
theorem test_decode_andReg : decodeWord 0b1000000100100010#16 = .ok (.andReg 1#4 2#4) := rfl
theorem test_decode_xorReg : decodeWord 0b1000000100100011#16 = .ok (.xorReg 1#4 2#4) := rfl
theorem test_decode_addReg : decodeWord 0b1000000100100100#16 = .ok (.addReg 1#4 2#4) := rfl
theorem test_decode_subReg : decodeWord 0b1000000100100101#16 = .ok (.subReg 1#4 2#4) := rfl
theorem test_decode_shr : decodeWord 0b1000000100000110#16 = .ok (.shr 1#4) := rfl
theorem test_decode_subnReg : decodeWord 0b1000000100100111#16 = .ok (.subnReg 1#4 2#4) := rfl
theorem test_decode_shl : decodeWord 0b1000000100001110#16 = .ok (.shl 1#4) := rfl
theorem test_decode_sneReg : decodeWord 0b1001000100100000#16 = .ok (.sneReg 1#4 2#4) := rfl
theorem test_decode_ldI : decodeWord 0b1010000100100011#16 = .ok (.ldI 0x123#12) := rfl
theorem test_decode_drw : decodeWord 0b1101000100100101#16 = .ok (.drw 1#4 2#4 5#4) := rfl
theorem test_decode_ldVxDt : decodeWord 0b1111000100000111#16 = .ok (.ldVxDt 1#4) := rfl
theorem test_decode_ldDtVx : decodeWord 0b1111001000010101#16 = .ok (.ldDtVx 2#4) := rfl
theorem test_decode_ldStVx : decodeWord 0b1111001100011000#16 = .ok (.ldStVx 3#4) := rfl
theorem test_decode_addI : decodeWord 0b1111010000011110#16 = .ok (.addI 4#4) := rfl
theorem test_decode_ldF : decodeWord 0b1111010100101001#16 = .ok (.ldF 5#4) := rfl
theorem test_decode_storeRegs : decodeWord 0b1111011001010101#16 = .ok (.storeRegs 6#4) := rfl
theorem test_decode_loadRegs : decodeWord 0b1111011101100101#16 = .ok (.loadRegs 7#4) := rfl

/-- R90, R83: the meaningless nibbles (vectors F15, F20, X11). -/
theorem test_decode_ignored_nibbles :
    decodeWord 0x512F#16 = .ok (.seReg 1#4 2#4) ∧ decodeWord 0x912F#16 = .ok (.sneReg 1#4 2#4) ∧
      decodeWord 0x80E6#16 = .ok (.shr 0#4) ∧ decodeWord 0x8FFE#16 = .ok (.shl 0xF#4) :=
  ⟨rfl, rfl, rfl, rfl⟩

theorem test_host_table_reading : decodeTableWord 16 0x6005 = some (.ldImm 0#4 5#8) := rfl

theorem test_opcode_rows_disjoint :
    opcodeTable.Pairwise (fun r q => (r.pattern ^^^ q.pattern) &&& (r.mask &&& q.mask) ≠ 0#16) := by
  decide

/-! ### Small states -/

/-- The state a STEP of the outcome leaves. -/
def nextOf : Host.Outcome State Fault Refusal → Option State
  | .next t => some t
  | .fault _ => none
  | .refused _ => none

/-- One instruction word at 0x200, run by `step`. -/
def ran (s : State) (w : Nat) : Option State := nextOf (step (s.withFetchWord 16 w))

/-- Reset, with V1, V2 and VF set. -/
def regs12 (a b : Byte) : State := ((State.reset.setReg 1#4 a).setReg 2#4 b).setReg 0xF#4 0x5A#8

/-- Registers V1 and VF after one instruction. -/
def v1vf (t : Option State) : Option (Byte × Byte) := t.map fun t => (t.reg 1#4, t.reg 0xF#4)

/-- Reset with I at `a`, VF = 5A, and bytes at `a`. -/
def atI (a : Nat) (bytes : List Byte) : State :=
  ((State.reset.setReg 0xF#4 0x5A#8).setI (BitVec.ofNat 16 a)).hostWriteAll a bytes

/-- Reset with `n` entries on the call stack, all 0x0202. -/
def stacked (n : Fin 17) : State :=
  { State.reset with stack := Vector.replicate 16 0x0202#16, sp := n }

/-- Is the pixel lit after one instruction? -/
def lit (t : Option State) (x y : Nat) : Option Bool := t.map fun t => pixel t.fb x y

/-- The latched record. -/
def latched (t : Option State) : Option FaultRecord := t.bind (·.fault)

/-! ### Vectors, 2.1: control flow -/

theorem test_F1 : (ran State.reset 0x1ABC).map (·.pc) = some 0x0ABC#16 := by decide
theorem test_F6 : (ran (stacked 15) 0x2F00).map (fun t => (t.sp.val, t.pc)) =
    some (16, 0x0F00#16) := by decide
theorem test_F7 : latched (ran (stacked 16) 0x2F00) = some ⟨.stackOverflow, 0x0200#16⟩ := by decide
theorem test_F8 : (ran (stacked 1) 0x00EE).map (fun t => (t.sp.val, t.pc)) =
    some (0, 0x0202#16) := by decide
theorem test_F9 : latched (ran State.reset 0x00EE) = some ⟨.stackUnderflow, 0x0200#16⟩ := by decide
theorem test_F10 : (ran (State.reset.setReg 3#4 0x42#8) 0x3342).map (·.pc) = some 0x0204#16 := by
  decide
theorem test_F12 : (ran (State.reset.setReg 3#4 0x42#8) 0x4342).map (·.pc) = some 0x0202#16 := by
  decide
theorem test_F16 : (ran (regs12 0x07#8 0x08#8) 0x5120).map (·.pc) = some 0x0202#16 := by decide
theorem test_F21 : (ran ((regs12 0x07#8 0x08#8).setReg 0#4 0x07#8) 0x9120).map (·.pc) =
    some 0x0204#16 := by decide
theorem test_F22 : (ran (State.reset.setPc 0x0FFE#16) 0x3000).map (·.pc) = some 0x1002#16 := by
  decide
/-- F22's next STEP. -/
theorem test_fetch_past_memory : latched (nextOf (step (State.reset.setPc 0x1002#16))) =
    some ⟨.boundsError .fetch 0x1002, 0x1002#16⟩ := by decide

/-! ### Vectors, 2.2: arithmetic -/

theorem test_A1 : (ran (regs12 0#8 0#8) 0x6AFF).map (fun t => (t.reg 0xA#4, t.reg 0xF#4)) =
    some (0xFF#8, 0x5A#8) := by decide
theorem test_A3 : v1vf (ran (regs12 0xFF#8 0#8) 0x7101) = some (0x00#8, 0x5A#8) := by decide
theorem test_A6 : v1vf (ran (regs12 0x11#8 0x22#8) 0x8120) = some (0x22#8, 0x5A#8) := by decide
theorem test_A7 : v1vf (ran (regs12 0xCC#8 0xAA#8) 0x8121) = some (0xEE#8, 0x5A#8) := by decide
theorem test_A8 : v1vf (ran (regs12 0xCC#8 0xAA#8) 0x8122) = some (0x88#8, 0x5A#8) := by decide
theorem test_A9 : v1vf (ran (regs12 0xCC#8 0xAA#8) 0x8123) = some (0x66#8, 0x5A#8) := by decide
theorem test_A12 : v1vf (ran (regs12 0xFF#8 0x01#8) 0x8124) = some (0x00#8, 0x01#8) := by decide
theorem test_A17 : (ran ((regs12 0x03#8 0#8).setReg 0xF#4 0x05#8) 0x8F14).map (·.reg 0xF#4) =
    some 0x00#8 := by decide
theorem test_A21 : v1vf (ran (regs12 0x01#8 0x10#8) 0x8125) = some (0xF1#8, 0x00#8) := by decide
theorem test_A22 : v1vf (ran (regs12 0x33#8 0x33#8) 0x8125) = some (0x00#8, 0x00#8) := by decide
theorem test_A28 : v1vf (ran (regs12 0x05#8 0xFF#8) 0x8126) = some (0x02#8, 0x01#8) := by decide
theorem test_A30 : (ran (State.reset.setReg 0xF#4 0x03#8) 0x8F06).map (·.reg 0xF#4) =
    some 0x01#8 := by decide
theorem test_A33 : v1vf (ran (regs12 0x10#8 0x01#8) 0x8127) = some (0xF1#8, 0x00#8) := by decide
theorem test_A36 : v1vf (ran (regs12 0x81#8 0#8) 0x810E) = some (0x02#8, 0x01#8) := by decide
theorem test_A39 : v1vf (ran (regs12 0x40#8 0xFF#8) 0x812E) = some (0x80#8, 0x00#8) := by decide

/-! ### Vectors, 2.3: index register and memory -/

theorem test_M1 : (ran (State.reset.setI 0xFFFF#16) 0xA123).map (·.i) = some 0x0123#16 := by decide
theorem test_M3 : (ran ((regs12 1#8 0#8).setI 0x0FFF#16) 0xF11E).map
    (fun t => (t.i, t.reg 0xF#4)) = some (0x1000#16, 0x5A#8) := by decide
theorem test_M4 : (ran ((regs12 2#8 0#8).setI 0xFFFF#16) 0xF11E).map (·.i) = some 0x0001#16 := by
  decide
theorem test_M7 : (ran ({ regs12 0#8 0x0A#8 with cfg := { Config.standard with fontBase := 0x50 } })
    0xF229).map (·.i) = some 0x0082#16 := by decide
theorem test_M8 : (ran (regs12 0#8 0xFF#8) 0xF229).map (·.i) = some 0x04FB#16 := by decide
theorem test_M12 : (ran (((regs12 0x02#8 0#8).setReg 0#4 0x01#8).setI 0x0FFE#16) 0xF155).map
    (fun t => (t.mem.read 0xFFE, t.mem.read 0xFFF, t.i)) = some (0x01#8, 0x02#8, 0x0FFE#16) := by
  decide
theorem test_M15 : latched (ran (State.reset.setI 0x1234#16) 0xF055) =
    some ⟨.boundsError .write 0x1234, 0x0200#16⟩ := by decide
theorem test_M16 : (ran ((atI 0x300 [0xA1#8, 0xB2#8, 0xC3#8, 0xD4#8]).setReg 3#4 0x99#8) 0xF265).map
    (fun t => [t.reg 0#4, t.reg 1#4, t.reg 2#4, t.reg 3#4]) =
    some [0xA1#8, 0xB2#8, 0xC3#8, 0x99#8] := by decide
theorem test_M19 : latched (ran (State.reset.setI 0x0FF1#16) 0xFF65) =
    some ⟨.boundsError .read 0x1000, 0x0200#16⟩ := by decide

/-! ### Vectors, 2.4: display -/

theorem test_G2 : (ran (regs12 0#8 0#8) 0x00E0).map (fun t => (t.fb, t.redraw, t.reg 0xF#4)) =
    some (darkPlane, true, 0x5A#8) := by decide
/-- G3 and R182's bit order: bit 7 is the leftmost pixel. -/
theorem test_G3 : (ran (atI 0x300 [0x80#8]) 0xD011).map
    (fun t => (t.fb, t.reg 0xF#4, t.redraw)) = some (darkPlane.set 0 1#64, 0x00#8, true) := by decide
/-- G4: clipped at column 63; no pixel wraps to column 0 or to the next row. -/
theorem test_G4 : (ran ((atI 0x300 [0xFF#8]).setReg 0#4 60#8) 0xD011).map
    (·.fb) =
    some (darkPlane.set 0 0xF000000000000000#64) := by decide

/-! ### Vectors, 2.5: timers, and the host's operations -/

theorem test_K1 : (ran (State.reset.setReg 0#4 0x3C#8) 0xF015).map (·.dt) = some 0x3C#8 := by decide
theorem test_K3 : (ran (State.reset.setDt 0x3B#8) 0xF107).map (fun t => (t.reg 1#4, t.dt)) =
    some (0x3B#8, 0x3B#8) := by decide
theorem test_K4 : (ran (State.reset.setReg 0#4 0x05#8) 0xF018).map (fun t => (t.st, t.dt)) =
    some (0x05#8, 0x00#8) := by decide
theorem test_K6 : ((State.reset.setDt 1#8).setSt 2#8).tick.dt = 0#8 ∧
    ((State.reset.setDt 1#8).setSt 2#8).tick.st = 1#8 ∧ State.reset.tick = State.reset := by decide
theorem test_K11 : ((State.reset.setDt 7#8).markRedraw true).render =
    (⟨darkPlane, 7#8⟩, State.reset.setDt 7#8) := by decide
theorem test_X13 : (State.reset.hostWrite 0x1000 0#8).fault =
    some ⟨.boundsError .hostWrite 0x1000, 0x0200#16⟩ := by decide
theorem test_X14 : (State.reset.hostWrite 0xFFF 0xAB#8).mem = [(0xFFF, 0xAB#8)] := by decide
theorem test_inspect_memory_ends_at_0xFFF :
    (atI 0xFFE [1#8, 2#8]).inspect (.memory 0xFFE 9) = .bytes [1#8, 2#8] := by decide

/-- A configuration with a font base of 0x50 and 80 font bytes, the first two of R166's table
F0 90 (its glyph 0). -/
def fontConfig : Config :=
  { Config.standard with
    fontBase := 0x50
    fontData := some ((Vector.replicate 80 0x20#8).set 0 0xF0#8 |>.set 1 0x90#8) }

/-- R40: the font is preloaded at FONT_BASE, and nothing else is. -/
theorem test_font_preloaded : (State.resetWith fontConfig).mem.length = 80 ∧
    (State.resetWith fontConfig).mem.read 0x50 = 0xF0#8 ∧
    (State.resetWith fontConfig).mem.read 0x51 = 0x90#8 ∧
    (State.resetWith fontConfig).mem.read 0xA0 = 0x00#8 := by decide

/-- F3: the self-jump report. -/
theorem test_F3 : stepResult (State.withFetchWord { State.reset with
    cfg := { Config.standard with haltOnSelfJump := true } } 16 0x1200) =
    .selfLoopHalt 0x0200#16 := by decide
theorem test_F2 : stepResult (State.reset.withFetchWord 16 0x1200) = .next := by decide
/-- The empty program (P5): the first STEP after reset. -/
theorem test_empty_program : stepResult State.reset =
    .fault ⟨.decodeError 0x0000#16, 0x0200#16⟩ := by decide
/-- X12: after a fault STEP is not enabled. -/
theorem test_X12 : stepResult (State.reset.raise .stackUnderflow) = .notEnabled := by decide

/-! ### Witnesses: for each statement with hypotheses, a state and operands that meet them

A statement with several clauses has a witness for each, at the edge of its range. -/

/-- Is a whole word fetched? -/
def fetched (s : State) : Option Word := s.fetch.toOption

theorem witness_ResetLeavesEveryPiece :
    0x200 < 4096 ∧ ¬ (Config.standard.fontBase.val ≤ 0x200 ∧ 0x200 < Config.standard.fontBase.val + 80) ∧
      63 < 64 ∧ 31 < 32 := by decide

theorem witness_StepRunsDecodedInstruction :
    (State.reset.withFetchWord 16 0x6005).fault = none ∧
      (State.reset.withFetchWord 16 0x6005).pc.toNat ≤ 4094 ∧
      decodeBytes [(State.reset.withFetchWord 16 0x6005).mem.read 0x200,
        (State.reset.withFetchWord 16 0x6005).mem.read 0x201] = .ok (.ldImm 0#4 5#8, []) :=
  ⟨rfl, by decide, rfl⟩

theorem witness_FetchIsBigEndian : (State.reset.setPc 0x0FFE#16).pc.toNat ≤ 4094 := by decide

theorem witness_FetchPastMemoryFaults :
    (State.reset.setPc 0x0FFF#16).fault = none ∧ 4095 < (State.reset.setPc 0x0FFF#16).pc.toNat + 1 ∧
      (State.reset.setPc 0x0FFE#16).pc.toNat ≤ 0xFFE := by decide

theorem witness_IllegalWordRaisesDecodeError :
    State.reset.fault = none ∧ fetched State.reset = some 0x0000#16 ∧
      legalWord 0x0000#16 = false := by decide

theorem witness_DecodeOfEncodeIsIdentity : (Instr.drw 0xF#4 0xF#4 0xF#4).wellFormed = true := rfl

theorem witness_EncodeOfDecodeIsCanonical : decodeWord 0x512F#16 = .ok (.seReg 1#4 2#4) := rfl

theorem witness_FaultsArePreciseAndAtomic_step :
    step State.reset = .next (State.reset.raise (.decodeError 0x0000#16)) ∧
      (State.reset.raise (.decodeError 0x0000#16)).fault =
        some ⟨.decodeError 0x0000#16, 0x0200#16⟩ := ⟨rfl, rfl⟩

theorem witness_FaultsArePreciseAndAtomic_hostWrite :
    State.reset.fault = none ∧ (State.reset.hostWrite 4096 1#8).fault =
      some ⟨.boundsError .hostWrite 4096, 0x0200#16⟩ := ⟨rfl, rfl⟩

theorem witness_FaultedCoreTakesNoStep :
    (State.reset.raise .stackOverflow).fault = some ⟨.stackOverflow, 0x0200#16⟩ ∧
      Session.move .tick ⟨State.reset.raise .stackOverflow, .running⟩ =
        some ⟨(State.reset.raise .stackOverflow).tick, .running⟩ := ⟨rfl, rfl⟩

theorem witness_FaultPriority_fetch :
    (State.reset.setPc 0x0FFF#16).fault = none ∧
      4095 < (State.reset.setPc 0x0FFF#16).pc.toNat + 1 := by decide

theorem witness_FaultPriority_decode :
    (State.reset.withFetchWord 16 0xF00A).fault = none ∧
      fetched (State.reset.withFetchWord 16 0xF00A) = some 0xF00A#16 ∧
      legalWord 0xF00A#16 = false := by decide

theorem witness_FaultPriority_execute :
    State.reset.fault = none ∧ exec .ret State.reset = .next (State.reset.raise .stackUnderflow) ∧
      (State.reset.raise .stackUnderflow).fault = some ⟨.stackUnderflow, 0x0200#16⟩ :=
  ⟨rfl, rfl, rfl⟩

theorem witness_EveryInstructionEndsInANextState : State.reset.fault = none := rfl

theorem witness_StepReportsWhatItDid_fault :
    step State.reset = .next (State.reset.raise (.decodeError 0x0000#16)) := rfl

theorem witness_StepReportsWhatItDid_next :
    step (State.reset.withFetchWord 16 0x1200) = .next (State.reset.withFetchWord 16 0x1200) ∧
      (State.reset.withFetchWord 16 0x1200).fault = none := ⟨rfl, rfl⟩

theorem witness_SelfLoopHaltIsOnlyAReport_jump :
    (State.reset.withFetchWord 16 0x1200).fault = none ∧
      fetched (State.reset.withFetchWord 16 0x1200) = some 0x1200#16 ∧
      decodeWord 0x1200#16 = .ok (.jp 0x200#12) ∧
      (0x200#12).toNat = (State.reset.withFetchWord 16 0x1200).pc.toNat :=
  ⟨rfl, by decide, rfl, by decide⟩

theorem witness_SelfLoopHaltIsOnlyAReport_report : stepResult (State.withFetchWord { State.reset with
    cfg := { Config.standard with haltOnSelfJump := true } } 16 0x1200) =
    .selfLoopHalt 0x0200#16 := by decide

theorem witness_RetPopsOrUnderflows :
    State.reset.sp.val = 0 ∧ (stacked 1).sp.val = (0 : Fin 16).val + 1 ∧
      (stacked 16).sp.val = (15 : Fin 16).val + 1 := by decide

theorem witness_JpSetsThePc :
    (State.reset.withFetchWord 16 0x1FFF).fault = none ∧
      (State.reset.withFetchWord 16 0x1FFF).fetch = .ok (0x1#4 ++ 0xFFF#12) := ⟨rfl, rfl⟩

theorem witness_CallPushesOrOverflows :
    (stacked 16).sp.val = 16 ∧ (stacked 15).sp.val = (15 : Fin 16).val ∧
      (stacked 0).sp.val = (0 : Fin 16).val := by decide

theorem witness_RetInvertsCall : (stacked 15).sp.val < 16 := by decide

theorem witness_ArithmeticIdentities :
    (1#4 : Reg) ≠ 0xF#4 ∧ (3#4 : Reg) ≠ 0xF#4 ∧
      ((State.reset.setReg 3#4 0x10#8).setReg 4#4 0x01#8).reg 3#4 = (regs12 0x01#8 0x10#8).reg 2#4 ∧
      ((State.reset.setReg 3#4 0x10#8).setReg 4#4 0x01#8).reg 4#4 = (regs12 0x01#8 0x10#8).reg 1#4 ∧
      ((regs12 0x10#8 0x01#8).reg 2#4).toNat ≤ ((regs12 0x10#8 0x01#8).reg 1#4).toNat := by decide

theorem witness_FlagRegisterAsOperand : (0xE#4 : Reg) ≠ 0xF#4 := by decide

theorem witness_flag_results_beside_VF : (0xE#4 : Reg) ≠ 0xF#4 ∧ (0#4 : Reg) ≠ 0xF#4 := by decide

theorem witness_StoreRegistersOrBoundsError :
    (State.reset.setI 0x0FF1#16).i.toNat + (0xF#4).toNat > 4095 ∧
      (State.reset.setI 0x0FF0#16).i.toNat + (0xF#4).toNat ≤ 4095 ∧
      (State.reset.setI 0x0FF0#16).mem.wf = true ∧ (0xF#4).toNat ≤ (0xF#4).toNat := by decide

theorem witness_LoadRegistersOrBoundsError :
    (State.reset.setI 0x1000#16).i.toNat + (0#4).toNat > 4095 ∧
      (State.reset.setI 0x0FFF#16).i.toNat + (0#4).toNat ≤ 4095 ∧ (0#4).toNat ≤ (0#4).toNat := by
  decide

theorem witness_FetchSeesTheStore :
    (State.reset.setI 0x0FFE#16).mem.wf = true ∧
      (State.reset.setI 0x0FFE#16).i.toNat + (1#4).toNat ≤ 4095 ∧
      (0x0FFE#16).toNat ≤ 4094 ∧
      (0x0FFE#16).toNat = (State.reset.setI 0x0FFE#16).i.toNat + (0#4).toNat ∧
      (0x0FFE#16).toNat + 1 = (State.reset.setI 0x0FFE#16).i.toNat + (1#4).toNat := by decide

theorem witness_FetchSeesTheStore_firstByteOnly :
    (State.reset.setI 0x0FFE#16).i.toNat + (0#4).toNat ≤ 4095 ∧
      (0x0FFE#16).toNat = (State.reset.setI 0x0FFE#16).i.toNat + (0#4).toNat ∧
      ¬ ((State.reset.setI 0x0FFE#16).i.toNat ≤ (0x0FFE#16).toNat + 1 ∧
        (0x0FFE#16).toNat + 1 ≤ (State.reset.setI 0x0FFE#16).i.toNat + (0#4).toNat) := by decide

theorem witness_FetchSeesTheStore_secondByteOnly :
    (State.reset.setI 0x0FFF#16).i.toNat + (0#4).toNat ≤ 4095 ∧
      (0x0FFE#16).toNat + 1 = (State.reset.setI 0x0FFF#16).i.toNat + (0#4).toNat ∧
      ¬ ((State.reset.setI 0x0FFF#16).i.toNat ≤ (0x0FFE#16).toNat ∧
        (0x0FFE#16).toNat ≤ (State.reset.setI 0x0FFF#16).i.toNat + (0#4).toNat) := by decide

theorem witness_DrawXorsTheSprite_fault :
    (1#4).toNat ≥ 1 ∧ (State.reset.setI 0x1000#16).i.toNat + (1#4).toNat - 1 > 4095 := by decide

theorem witness_DrawXorsTheSprite_noRows : SpriteInMemory (State.reset.setI 0xFFFF#16) 0#4 := .inl rfl

theorem witness_DrawXorsTheSprite_lastByte : SpriteInMemory (State.reset.setI 0x0FFF#16) 1#4 :=
  .inr (by decide)

/-- One set bit, in the corner of the display. -/
def corner : State := ((atI 0xFFF [0x80#8]).setReg 0#4 63#8).setReg 1#4 31#8

theorem witness_DrawXorsTheSprite_covers : spriteCovers corner 0#4 1#4 1#4 63 31 := by
  unfold spriteCovers; decide

theorem witness_DrawXorsTheSprite_collides : ∃ px py,
    spriteCovers (corner.setFb (darkPlane.set 31 0x8000000000000000#64)) 0#4 1#4 1#4 px py ∧
    pixel (corner.setFb (darkPlane.set 31 0x8000000000000000#64)).fb px py = true :=
  ⟨63, 31, by unfold spriteCovers; decide, by decide⟩

theorem witness_DrawXorsTheSprite_noCollision :
    ¬ ∃ px py, spriteCovers corner 0#4 1#4 1#4 px py ∧ pixel corner.fb px py = true := by
  rintro ⟨px, py, -, h⟩
  have : pixel darkPlane px py = false := by unfold pixel darkPlane; split <;> simp
  exact absurd (h.symm.trans this) (by decide)

theorem witness_DrawXorsTheSprite_uncovered : ¬ spriteCovers corner 0#4 1#4 1#4 62 31 := by
  unfold spriteCovers; decide

theorem witness_ClippedDrawNeverWraps :
    SpriteInMemory (State.reset.setReg 0#4 64#8) 1#4 ∧
      64 ≤ ((State.reset.setReg 0#4 64#8).reg 0#4).toNat ∧
      SpriteInMemory (State.reset.setReg 1#4 32#8) 1#4 ∧
      32 ≤ ((State.reset.setReg 1#4 32#8).reg 1#4).toNat ∧ (0#4).toNat = 0 :=
  ⟨.inr (by decide), by decide, .inr (by decide), by decide, rfl⟩

/-- A pixel the draw changes. -/
theorem witness_ClippedDrawNeverWraps_changed : SpriteInMemory corner 1#4 ∧
    (nextOf (exec (.drw 0#4 1#4 1#4) corner)).map (fun t => pixel t.fb 63 31) =
      some (!pixel corner.fb 63 31) := ⟨.inr (by decide), by decide⟩

theorem witness_DrawTwiceRestoresThePlane : SpriteInMemory corner 1#4 ∧
    (nextOf (exec (.drw 0#4 1#4 1#4) corner)).map (fun t => (t.reg 0#4, t.reg 1#4)) =
      some (corner.reg 0#4, corner.reg 1#4) ∧
    spriteCovers corner 0#4 1#4 1#4 63 31 ∧ pixel corner.fb 63 31 = false :=
  ⟨.inr (by decide), by decide, by unfold spriteCovers; decide, by decide⟩

theorem witness_DrawTwiceRestoresThePlane_noRows :
    ¬ ∃ px py, spriteCovers corner 0#4 1#4 0#4 px py ∧ pixel corner.fb px py = false := by
  rintro ⟨px, py, ⟨-, -, -, -, h1, h2, -⟩, -⟩
  simp only [BitVec.toNat_ofNat] at h2
  omega

theorem witness_SecondDrawCollidesOnEveryPlane : SpriteInMemory corner 1#4 ∧ (0#4 : Reg) ≠ 0xF#4 ∧
    (1#4 : Reg) ≠ 0xF#4 ∧ ∃ px py, spriteCovers corner 0#4 1#4 1#4 px py :=
  ⟨.inr (by decide), by decide, by decide, 63, 31, by unfold spriteCovers; decide⟩

theorem witness_HostWriteWritesOrFaults :
    State.reset.fault = none ∧ 4096 > 4095 ∧ 4095 ≤ 4095 ∧ State.reset.mem.wf = true ∧
      4094 ≠ 4095 := by decide

theorem witness_LaunchStateHoldsTheProgram :
    (List.replicate 3584 0x12#8).length ≤ 3584 ∧ 3584 < (List.replicate 3585 0x12#8).length ∧
      ¬ (0x200 ≤ 0x1FF ∧ 0x1FF < 0x200 + (List.replicate 3584 0x12#8).length) := by
  rw [List.length_replicate, List.length_replicate]; decide

theorem witness_PcAfterEachInstruction_next :
    State.reset.fault = none ∧ exec (.jp 0xFFF#12) State.reset = .next (State.reset.setPc 0x0FFF#16) ∧
      (State.reset.setPc 0x0FFF#16).fault = none := ⟨rfl, rfl, rfl⟩

theorem witness_PcAfterEachInstruction_fault :
    exec .ret State.reset = .next (State.reset.raise .stackUnderflow) ∧
      (State.reset.raise .stackUnderflow).fault ≠ none := ⟨rfl, by decide⟩

theorem witness_EveryInstructionKeepsItsFrame :
    exec (.ldI 0x123#12) State.reset = .next (State.reset.setI 0x0123#16).advance := rfl

theorem witness_HiddenStateIsNeverRead :
    observable (stacked 3) = observable { stacked 3 with
      st := 9#8, redraw := true, stack := (stacked 3).stack.set 3 0x0FFF#16 } ∧
    stacked 3 ≠ { stacked 3 with
      st := 9#8, redraw := true, stack := (stacked 3).stack.set 3 0x0FFF#16 } := by decide

/-- The invariant with a program byte in memory, entries on the stack and PC at its limit. -/
def edge : State := { stacked 16 with mem := [(0xFFF, 1#8)], pc := 0x1002#16 }

theorem witness_StepKeepsTheInvariant : Inv edge ∧
    step edge = .next (edge.raise (.boundsError .fetch 0x1002)) :=
  ⟨⟨by decide, by decide, by decide, by decide, by intro r h; cases h⟩, rfl⟩

theorem witness_StepKeepsTheInvariant_executes : Inv (stacked 15) ∧
    (ran (stacked 15) 0x2FFF).isSome = true :=
  ⟨⟨by decide, by decide, by decide, by decide, by intro r h; cases h⟩, by decide⟩

theorem witness_HostMovesKeepTheInvariant : Inv (Session.mk edge .loading).core ∧
    Session.move .tick ⟨edge, .loading⟩ = some ⟨edge.tick, .loading⟩ ∧
    Session.move (.hostWrite 0x200 1#8) ⟨edge, .loading⟩ =
      some ⟨edge.hostWrite 0x200 1#8, .loading⟩ :=
  ⟨⟨by decide, by decide, by decide, by decide, by intro r h; cases h⟩, rfl, rfl⟩

theorem witness_FinishedStateIsAFixedPoint : Finished (State.reset.withFetchWord 16 0x1200) :=
  ⟨rfl, by decide⟩

end Sys2Proof.Tests
end

section
/-! PROOFS. Frames composed one update at a time, what the execution of an instruction can do (said
once, over all instructions), and from it the statements about every instruction and every STEP. -/
namespace Sys2Proof.Machine

/-! ### Frames, one update at a time

Each lemma extends a frame from `s` to `t` by one more update of `t` that `w` allows. -/

theorem Frame.refl (s : State) (w : Writes) : Frame s s w where
  regs _ _ := rfl
  index _ := rfl
  stackPointer _ := rfl
  stackEntries _ _ := rfl
  delayTimer _ := rfl
  soundTimer _ := rfl
  plane _ := rfl
  redraw _ := rfl
  memory _ _ := rfl
  cfg := rfl
  fault := rfl

section
variable {s t : State} {w : Writes} (hf : Frame s t w)
include hf

theorem Frame.setPc (a : Word) : Frame s (t.setPc a) w := { hf with }

theorem Frame.advance : Frame s t.advance w := hf.setPc _

theorem Frame.skipIf (c : Bool) : Frame s (t.skipIf c) w := by
  cases c
  · exact hf.advance
  · exact hf.advance.advance

theorem Frame.setReg {x : Reg} (hx : x ∈ w.regs) (b : Byte) : Frame s (t.setReg x b) w :=
  { hf with
    regs := fun r hr => by
      rw [State.reg_setReg_other t b (by rintro rfl; exact hr hx), hf.regs r hr] }

theorem Frame.setI (hw : w.index = true) (a : Word) : Frame s (t.setI a) w :=
  { hf with index := by simp [hw] }

theorem Frame.setDt (hw : w.delayTimer = true) (b : Byte) : Frame s (t.setDt b) w :=
  { hf with delayTimer := by simp [hw] }

theorem Frame.setSt (hw : w.soundTimer = true) (b : Byte) : Frame s (t.setSt b) w :=
  { hf with soundTimer := by simp [hw] }

theorem Frame.setFb (hw : w.plane = true) (p : Plane) : Frame s (t.setFb p) w :=
  { hf with plane := by simp [hw] }

theorem Frame.markRedraw (hw : w.redraw = true) (c : Bool) : Frame s (t.markRedraw c) w :=
  { hf with redraw := by simp [hw] }

theorem Frame.writeMem {a : Nat} (ha : w.memFirst ≤ a ∧ a < w.memFirst + w.memCount) (b : Byte) :
    Frame s (t.writeMem a b) w :=
  { hf with
    memory := fun k hk => by
      rw [State.writeMem_mem, Memory.read_write_other _ b (by rintro rfl; exact hk ha),
        hf.memory k hk] }

end

theorem Frame.plainResult (s : State) (x : Reg) (b : Byte) :
    Frame s (s.plainResult x b) { regs := [x] } :=
  ((Frame.refl s _).setReg (List.mem_singleton_self x) b).advance

theorem Frame.flaggedResult (s : State) (x : Reg) (b : Byte) (f : Bool) :
    Frame s (s.flaggedResult x b f) { regs := [x, 0xF#4] } :=
  (((Frame.refl s _).setReg (x := x) (by simp) b).setReg (x := regVF) (by simp [regVF]) _).advance

theorem Frame.storeBlock (s : State) {base count n : Nat} (hn : n ≤ count) :
    Frame s (s.storeBlock base n) { memFirst := base, memCount := count } := by
  induction n with
  | zero => exact .refl s _
  | succ k ih => exact (ih (by omega)).writeMem ⟨by simp, by simp; omega⟩ _

theorem Frame.loadBlock (s : State) (base : Nat) {count n : Nat} (hn : n ≤ count) :
    Frame s (s.loadBlock base n) { regs := (List.range count).map (BitVec.ofNat 4) } := by
  induction n with
  | zero => exact .refl s _
  | succ k ih => exact (ih (by omega)).setReg (List.mem_map_of_mem (List.mem_range.2 hn)) _

/-! ### The instructions that can fault -/

/-- A range-checked effect completes, or faults at an address outside memory (R57, R60). -/
theorem State.conclude_checkRange (s t : State) (sub : AccessKind) (base count : Nat) :
    s.conclude (checkRange sub base count t) = .next t ∨
      ∃ a, 4096 ≤ a ∧
        s.conclude (checkRange sub base count t) = .next (s.raise (.boundsError sub a)) := by
  by_cases h : count = 0 ∨ base + count ≤ 4096
  · exact .inl (by rw [checkRange_inside sub t h, State.conclude_ok])
  · refine .inr ⟨max base 4096, le_max_right _ _, ?_⟩
    rw [checkRange_outside sub t (by omega) (by omega), State.conclude_error]

theorem exec_call_free (addr : Addr12) {s : State} (h : s.sp.val < 16) :
    exec (.call addr) s = .next { s with
      stack := s.stack.set s.sp.val (returnAddr s) h
      sp := ⟨s.sp.val + 1, by omega⟩
      pc := addrWord addr } := by
  show s.conclude ((s.push (returnAddr s)).map _) = _
  rw [s.push_free _ h]
  rfl

theorem exec_call_full (addr : Addr12) {s : State} (h : s.sp.val = 16) :
    exec (.call addr) s = .next (s.raise .stackOverflow) := by
  show s.conclude ((s.push (returnAddr s)).map _) = _
  rw [s.push_full _ h]
  rfl

theorem exec_ret_live {s : State} (h : 0 < s.sp.val) :
    exec .ret s = .next { s with
      pc := s.stack[s.sp.val - 1]'(by have := s.sp.isLt; omega)
      sp := ⟨s.sp.val - 1, by have := s.sp.isLt; omega⟩ } := by
  show s.conclude s.popToPc = _
  rw [s.popToPc_live h]
  rfl

theorem exec_ret_empty {s : State} (h : s.sp.val = 0) :
    exec .ret s = .next (s.raise .stackUnderflow) := by
  show s.conclude s.popToPc = _
  rw [s.popToPc_empty h]
  rfl

/-- CALL writes the entry at SP alone. -/
theorem stack_set_other (s : State) (a : Word) (h : s.sp.val < 16) {k : Fin 16}
    (hk : k.val ≠ s.sp.val) : (s.stack.set s.sp.val a h)[k] = s.stack[k] := by
  simp [hk.symm]

/-! ### What the execution of an instruction can do -/

/-- R26: the address `p` at which a completed instruction leaves PC. -/
def PcRule (i : Instr) (s : State) (p : Word) : Prop :=
  match i with
  | .jp addr => p.toNat = addr.toNat
  | .call addr => p.toNat = addr.toNat
  | .ret => ∃ k : Fin 16, s.sp.val = k.val + 1 ∧ p = s.stack[k]
  | .seImm x kk => p = if s.reg x = kk then s.pc + 4#16 else s.pc + 2#16
  | .sneImm x kk => p = if s.reg x ≠ kk then s.pc + 4#16 else s.pc + 2#16
  | .seReg x y => p = if s.reg x = s.reg y then s.pc + 4#16 else s.pc + 2#16
  | .sneReg x y => p = if s.reg x ≠ s.reg y then s.pc + 4#16 else s.pc + 2#16
  | _ => p = s.pc + 2#16

/-- What a completed instruction does to memory's form and to the call stack: an entry is the one
that was there, live only if it was, or it is the return address. -/
structure StoreKept (s t : State) : Prop where
  memory : s.mem.wf = true → t.mem.wf = true
  stack : ∀ k : Fin 16, (t.stack[k] = s.stack[k] ∧ (k.val < t.sp.val → k.val < s.sp.val)) ∨
    t.stack[k] = returnAddr s

theorem StoreKept.of_eq {s t : State} (hm : t.mem = s.mem) (hs : t.stack = s.stack)
    (hp : t.sp = s.sp) : StoreKept s t where
  memory h := hm ▸ h
  stack k := .inl ⟨by rw [hs], by rw [hp]; exact id⟩

/-- The instruction completes from `s` in `t`. -/
structure Completed (i : Instr) (s t : State) : Prop where
  frame : Frame s t (writesOf i s)
  pc : PcRule i s t.pc
  store : StoreKept s t

/-- An instruction completes, or raises a fault whose record is as R211 says. -/
def CompletesOrFaults (i : Instr) (s : State) : Prop :=
  (∃ t, exec i s = .next t ∧ Completed i s t) ∨
    ∃ c, exec i s = .next (s.raise c) ∧ recordOk s ⟨c, s.pc⟩

theorem recordOk_boundsError (s : State) (sub : AccessKind) {a : Nat} (h : 4096 ≤ a) :
    recordOk s ⟨.boundsError sub a, s.pc⟩ :=
  ⟨rfl, by simp [FaultRecord.word], by simpa [FaultRecord.addr] using h⟩

theorem recordOk_decodeError (s : State) {w : Word} (h : legalWord w = false) :
    recordOk s ⟨.decodeError w, s.pc⟩ :=
  ⟨rfl, by simpa [FaultRecord.word] using h, by simp [FaultRecord.addr]⟩

theorem addrWord_toNat (addr : Addr12) : (addrWord addr).toNat = addr.toNat := by
  simp [addrWord]; omega

theorem completesOrFaults_checkRange {i : Instr} {s t : State} {sub : AccessKind}
    {base count : Nat} (he : exec i s = s.conclude (checkRange sub base count t))
    (ht : Completed i s t) : CompletesOrFaults i s := by
  rcases s.conclude_checkRange t sub base count with h | ⟨a, ha, h⟩
  · exact .inl ⟨t, he.trans h, ht⟩
  · exact .inr ⟨_, he.trans h, recordOk_boundsError s sub ha⟩

theorem completesOrFaults_call (addr : Addr12) (s : State) : CompletesOrFaults (.call addr) s := by
  by_cases h : s.sp.val < 16
  · refine .inl ⟨_, exec_call_free addr h, ?_, addrWord_toNat addr, id, fun k => ?_⟩
    · exact { Frame.refl s (writesOf (.call addr) s) with
        stackPointer := by simp [writesOf]
        stackEntries := fun k hk => stack_set_other s _ h (by simpa [writesOf] using hk) }
    · by_cases hk : k.val = s.sp.val
      · exact .inr (by simp [hk])
      · exact .inl ⟨stack_set_other s _ h hk, fun h' => by dsimp only at h'; omega⟩
  · exact .inr ⟨_, exec_call_full addr (by have := s.sp.isLt; omega), rfl, nofun, nofun⟩

theorem completesOrFaults_ret (s : State) : CompletesOrFaults .ret s := by
  by_cases h : 0 < s.sp.val
  · have hlt := s.sp.isLt
    refine .inl ⟨_, exec_ret_live h, ?_, ⟨⟨s.sp.val - 1, by omega⟩, ?_, rfl⟩, id, fun k => ?_⟩
    · exact { Frame.refl s (writesOf .ret s) with stackPointer := by simp [writesOf] }
    · dsimp only; omega
    · exact .inl ⟨rfl, fun h' => by dsimp only at h'; omega⟩
  · exact .inr ⟨_, exec_ret_empty (by omega), rfl, nofun, nofun⟩

/-- An instruction that ends in a conditional skip. -/
theorem completed_skipIf {i : Instr} {s : State} {c : Bool} (hp : PcRule i s (s.skipIf c).pc) :
    Completed i s (s.skipIf c) :=
  ⟨(Frame.refl s _).skipIf c, hp, .of_eq (by simp) (by simp) (by simp)⟩

/-- Everything the execution of an instruction can do, for every instruction and state. -/
theorem exec_completesOrFaults (i : Instr) (s : State) : CompletesOrFaults i s := by
  have same {w : Writes} : Frame s s w := .refl s w
  cases i with
  | ret => exact completesOrFaults_ret s
  | call addr => exact completesOrFaults_call addr s
  | jp addr => exact .inl ⟨_, rfl, same.setPc _, addrWord_toNat addr, .of_eq rfl rfl rfl⟩
  | seImm x kk | sneImm x kk | seReg x y | sneReg x y =>
    exact .inl ⟨_, rfl, completed_skipIf ((s.skipIf_pc _).trans (by simp))⟩
  | ldImm x | addImm x | ldReg x | orReg x | andReg x | xorReg x | ldVxDt x =>
    exact .inl ⟨_, rfl, .plainResult s x _, rfl, .of_eq rfl rfl rfl⟩
  | addReg x | subReg x | shr x | subnReg x | shl x =>
    exact .inl ⟨_, rfl, .flaggedResult s x _ _, rfl, .of_eq rfl rfl rfl⟩
  | ldI | addI | ldF => exact .inl ⟨_, rfl, (same.setI rfl _).advance, rfl, .of_eq rfl rfl rfl⟩
  | ldDtVx => exact .inl ⟨_, rfl, (same.setDt rfl _).advance, rfl, .of_eq rfl rfl rfl⟩
  | ldStVx => exact .inl ⟨_, rfl, (same.setSt rfl _).advance, rfl, .of_eq rfl rfl rfl⟩
  | cls =>
    exact .inl ⟨_, rfl, ((same.setFb rfl _).markRedraw rfl _).advance, rfl, .of_eq rfl rfl rfl⟩
  | drw x y n =>
    refine completesOrFaults_checkRange rfl ⟨?_, rfl, .of_eq rfl rfl rfl⟩
    exact (((same.setFb rfl _).setReg (List.mem_singleton_self _) _).markRedraw rfl _).advance
  | storeRegs x =>
    refine completesOrFaults_checkRange rfl ⟨(Frame.storeBlock s le_rfl).advance, ?_, ?_⟩
    · rw [State.storeBlock_eq]; rfl
    · exact ⟨s.storeBlock_wf _ _, fun k => .inl (by rw [State.storeBlock_eq]; exact ⟨rfl, id⟩)⟩
  | loadRegs x =>
    refine completesOrFaults_checkRange rfl ⟨(Frame.loadBlock s _ le_rfl).advance, ?_, ?_⟩
    · rw [State.loadBlock_eq]; rfl
    · exact .of_eq (by rw [State.loadBlock_eq]; rfl) (by rw [State.loadBlock_eq]; rfl)
        (by rw [State.loadBlock_eq]; rfl)

/-- The inversion of `exec`: the next state is the instruction's, or the state before with the latch
set. -/
theorem exec_cases {i : Instr} {s t : State} (h : exec i s = .next t) :
    Completed i s t ∨ ∃ c, t = s.raise c ∧ recordOk s ⟨c, s.pc⟩ := by
  rcases exec_completesOrFaults i s with ⟨u, hu, hc⟩ | ⟨c, hu, hc⟩ <;> cases hu.symm.trans h
  · exact .inl hc
  · exact .inr ⟨c, rfl, hc⟩

/-- Settles O51: a completed instruction keeps its frame, and a fault sets the latch alone. -/
theorem everyInstructionKeepsItsFrame : Obligations.EveryInstructionKeepsItsFrame := by
  intro i s t h
  rcases exec_cases h with hc | ⟨c, rfl, -⟩
  · exact .inl hc.frame
  · exact .inr ⟨_, rfl⟩

/-- Settles O50: a completed instruction leaves FAULT none and PC by R26's rule; a fault leaves PC
at pc0. -/
theorem pcAfterEachInstruction : Obligations.PcAfterEachInstruction := by
  intro i s t hs h
  rcases exec_cases h with hc | ⟨c, rfl, -⟩
  · exact ⟨fun hn => absurd (hc.frame.fault.trans hs) hn, fun _ => by cases i <;> exact hc.pc⟩
  · exact ⟨fun _ => rfl, fun hn => by simp at hn⟩

/-- Settles O21: CALL overwrites only the dead entry at SP, which RET pops again. -/
theorem retInvertsCall : Obligations.RetInvertsCall := by
  intro addr s h
  refine ⟨_, _, exec_call_free addr h, exec_ret_live (Nat.succ_pos _), ?_, rfl,
    fun j hj => stack_set_other s _ h (by omega), ?_⟩
  · simp [returnAddr]
  · exact { Frame.refl s _ with
      stackEntries := fun k hk => stack_set_other s _ h (by simpa using hk) }

/-! ### The words the decoder refuses -/

theorem nibbleA_and (w m : Word) : nibbleA (w &&& m) = nibbleA w &&& nibbleA m :=
  BitVec.extractLsb'_and ..

theorem nibbleD_and (w m : Word) : nibbleD (w &&& m) = nibbleD w &&& nibbleD m :=
  BitVec.extractLsb'_and ..

theorem lowByte_and (w m : Word) : lowByte (w &&& m) = lowByte w &&& lowByte m :=
  BitVec.extractLsb'_and ..

/-- The nibble that a family's mask selects. -/
theorem nibbleA_of_masked {w p m : Word} (h : w &&& m = p) (hm : nibbleA m = 0xF#4) :
    nibbleA w = nibbleA p := by
  rw [← h, nibbleA_and, hm]; exact BitVec.and_allOnes.symm

theorem nibbleD_of_masked {w p m : Word} (h : w &&& m = p) (hm : nibbleD m = 0xF#4) :
    nibbleD w = nibbleD p := by
  rw [← h, nibbleD_and, hm]; exact BitVec.and_allOnes.symm

theorem lowByte_of_masked {w p m : Word} (h : w &&& m = p) (hm : lowByte m = 0xFF#8) :
    lowByte w = lowByte p := by
  rw [← h, lowByte_and, hm]; exact BitVec.and_allOnes.symm

/-- A word that selects a row of the table decodes: its family nibble, and in the families with
several rows the nibble or byte that tells them apart, are the row's (R85, R86). -/
theorem decodeWord_of_selects {w : Word} (i : Instr) (h : (rowOf i).selects w = true) :
    ∃ j, decodeWord w = .ok j := by
  have hw : w &&& (rowOf i).mask = (rowOf i).pattern := beq_iff_eq.1 h
  cases i with
  | cls | ret =>
    obtain rfl := BitVec.and_allOnes.symm.trans hw
    exact ⟨_, rfl⟩
  | jp | call | seImm | sneImm | seReg | ldImm | addImm | sneReg | ldI | drw =>
    dsimp only [rowOf] at hw
    have hA := nibbleA_of_masked hw rfl
    exact ⟨_, by rw [decodeWord, hA]; rfl⟩
  | ldReg | orReg | andReg | xorReg | addReg | subReg | shr | subnReg | shl =>
    dsimp only [rowOf] at hw
    have hA := nibbleA_of_masked hw rfl
    have hD := nibbleD_of_masked hw rfl
    exact ⟨_, by rw [decodeWord, hA, hD]; rfl⟩
  | ldVxDt | ldDtVx | ldStVx | addI | ldF | storeRegs | loadRegs =>
    dsimp only [rowOf] at hw
    have hA := nibbleA_of_masked hw rfl
    have hL := lowByte_of_masked hw rfl
    exact ⟨_, by rw [decodeWord, hA, hL]; rfl⟩

theorem legalWord_of_decodeWord_error {w : Word} {r : DecodeRefusal} (h : decodeWord w = .error r) :
    legalWord w = false := by
  by_contra hl
  have hl' : opcodeTable.any (·.selects w) = true := by simpa [legalWord] using hl
  obtain ⟨row, hrow, hs⟩ := List.any_eq_true.1 hl'
  obtain ⟨i, -, rfl⟩ := List.mem_map.1 hrow
  obtain ⟨j, hj⟩ := decodeWord_of_selects i hs
  rw [hj] at h
  cases h

/-! ### The invariant -/

/-- Settles O53: the font is written in canonical form and the stack is zero. -/
theorem resetMeetsTheInvariant : Obligations.ResetMeetsTheInvariant := fun c =>
  { memory := Memory.atReset_wf c
    pc := show (0x0200#16).toNat ≤ 4098 by decide
    stack := fun k => by simp [State.resetWith]
    live := fun k hk => absurd hk (Nat.not_lt_zero _)
    latch := fun r hr => by cases hr }

/-- Taking a fault keeps the invariant when the record is as R211 says. -/
theorem Inv.raise {s : State} {c : FaultCause} (hi : Inv s) (hc : recordOk s ⟨c, s.pc⟩) :
    Inv (s.raise c) :=
  { hi with latch := fun r hr => by cases hr; exact hc }

/-- PC after a completed instruction fetched inside memory: a 12-bit address, a stack entry, or at
most 4 past the instruction (R27, R118). -/
theorem PcRule.toNat_le {i : Instr} {s : State} {p : Word} (h : PcRule i s p) (hi : Inv s)
    (hpc : s.pc.toNat ≤ 4094) : p.toNat ≤ 4098 := by
  have next : (s.pc + 2#16).toNat ≤ 4098 := by bv_omega
  have skip : (s.pc + 4#16).toNat ≤ 4098 := by bv_omega
  cases i with
  | jp addr | call addr => exact (show p.toNat = addr.toNat from h) ▸ by omega
  | ret =>
    obtain ⟨k, -, rfl⟩ := h
    exact (hi.stack k).trans (by decide)
  | seImm | sneImm | seReg | sneReg =>
    rw [show p = ite _ _ _ from h]
    split
    · exact skip
    · exact next
  | _ => exact (show p = s.pc + 2#16 from h) ▸ next

/-- A completed instruction fetched inside memory keeps the invariant: CALL pushes 2 to 4096. -/
theorem Inv.of_completed {i : Instr} {s t : State} (hi : Inv s) (hf : s.fault = none)
    (hpc : s.pc.toNat ≤ 4094) (hc : Completed i s t) : Inv t := by
  obtain ⟨frame, pc, memory, stack⟩ := hc
  have ret : 2 ≤ (returnAddr s).toNat ∧ (returnAddr s).toNat ≤ 4096 := by
    simp only [returnAddr]; bv_omega
  refine ⟨memory hi.memory, pc.toNat_le hi hpc, fun k => ?_, fun k hk => ?_, fun r hr => ?_⟩
  · rcases stack k with ⟨e, -⟩ | e <;> rw [e]
    · exact hi.stack k
    · exact ret.2
  · rcases stack k with ⟨e, hlive⟩ | e <;> rw [e]
    · exact hi.live k (hlive hk)
    · exact ret.1
  · rw [frame.fault, hf] at hr
    cases hr

/-- Settles O54: a STEP faults with a record as R211 says, or completes an instruction fetched
inside memory. -/
theorem stepKeepsTheInvariant : Obligations.StepKeepsTheInvariant := by
  intro s t hi h
  cases hf : s.fault with
  | some r => rw [step_of_fault s hf] at h; cases h
  | none =>
    rcases step_cases s hf with ⟨-, e⟩ | ⟨w, r, -, -, hd, e⟩ | ⟨w, i, hpc, -, -, e⟩ <;> rw [e] at h
    · cases h
      exact hi.raise (recordOk_boundsError s _ (le_max_right _ _))
    · cases h
      exact hi.raise (recordOk_decodeError s (legalWord_of_decodeWord_error hd))
    · rcases exec_cases h with hc | ⟨c, rfl, hc⟩
      · exact hi.of_completed hf hpc hc
      · exact hi.raise hc

/-! ### RESET -/

/-- Settles O1: all but the registers, the stack and memory hold by the definition of RESET. -/
theorem resetLeavesEveryPiece : Obligations.ResetLeavesEveryPiece := by
  refine ⟨fun c => ⟨fun x => ?_, rfl, rfl, rfl, fun k => ?_, rfl, rfl, fun a _ h => ?_, fun k => ?_,
    fun px py _ _ => pixel_darkPlane px py, rfl, rfl, rfl, rfl⟩, fun x => rfl⟩
  · simp [State.reg, State.resetWith]
  · simp [State.resetWith]
  · exact Memory.read_atReset_outside c h
  · exact Memory.read_atReset_font c k

/-! ### What no instruction reads -/

/-- The stack as a program observes it: the dead entries masked (R29). -/
def liveStack (a : Vector Word 16) (n : Fin 17) : Vector Word 16 :=
  Vector.ofFn fun k : Fin 16 => if k.val < n.val then a[k] else 0x0000#16

theorem observable_eq (s : State) : observable s =
    { s with st := 0x00#8, redraw := false, stack := liveStack s.stack s.sp } := rfl

theorem liveStack_live {a : Vector Word 16} {n : Fin 17} {k : Fin 16} (h : k.val < n.val) :
    (liveStack a n)[k] = a[k] := by simp [liveStack, h]

theorem liveStack_congr {a b : Vector Word 16} {n : Fin 17}
    (h : ∀ k : Fin 16, k.val < n.val → a[k] = b[k]) : liveStack a n = liveStack b n := by
  unfold liveStack
  congr 1
  funext k
  split
  · next hk => exact h k hk
  · rfl

/-- An observed state is determined by the stack entries below SP. -/
theorem observable_stack_congr (s : State) (p : Word) (n : Fin 17) {a b : Vector Word 16}
    (h : ∀ k : Fin 16, k.val < n.val → a[k] = b[k]) :
    observable { s with pc := p, stack := a, sp := n } =
      observable { observable s with pc := p, stack := b, sp := n } := by
  simp only [observable_eq, liveStack_congr h]

theorem observable_stack_live (s : State) {k : Fin 16} (h : k.val < s.sp.val) :
    (observable s).stack[k] = s.stack[k] := by
  simp only [observable_eq, liveStack_live h]

@[simp] theorem observable_observable (s : State) : observable (observable s) = observable s := by
  simp only [observable_eq, liveStack_congr fun _ hk => liveStack_live hk]

/-! What a state is observed to hold, and how each update is observed. -/

section
variable (s : State)

@[simp] theorem observable_fault : (observable s).fault = s.fault := by simp only [observable_eq]
@[simp] theorem observable_sp : (observable s).sp = s.sp := by simp only [observable_eq]
@[simp] theorem observable_pc : (observable s).pc = s.pc := by simp only [observable_eq]
@[simp] theorem observable_i : (observable s).i = s.i := by simp only [observable_eq]
@[simp] theorem observable_dt : (observable s).dt = s.dt := by simp only [observable_eq]
@[simp] theorem observable_fb : (observable s).fb = s.fb := by simp only [observable_eq]
@[simp] theorem observable_mem : (observable s).mem = s.mem := by simp only [observable_eq]
@[simp] theorem observable_cfg : (observable s).cfg = s.cfg := by simp only [observable_eq]
@[simp] theorem observable_reg (x : Reg) : (observable s).reg x = s.reg x := by
  simp only [State.reg, observable_eq]

@[simp] theorem fetch_observable : (observable s).fetch = s.fetch := by simp [State.fetch]

@[simp] theorem returnAddr_observable : returnAddr (observable s) = returnAddr s := by
  simp [returnAddr]

@[simp] theorem blockBase_observable : blockBase (observable s) = blockBase s := by
  simp [blockBase]

@[simp] theorem regWord_observable (x : Reg) : regWord (observable s) x = regWord s x := by
  simp [regWord]

@[simp] theorem glyphAddr_observable (x : Reg) : glyphAddr (observable s) x = glyphAddr s x := by
  simp [glyphAddr]

@[simp] theorem drawSprite_observable (x y : Reg) (n : Nibble) :
    drawSprite x y n (observable s) = drawSprite x y n s := by
  simp [drawSprite, spriteRows]

@[simp] theorem observable_setReg (x : Reg) (b : Byte) :
    observable (s.setReg x b) = (observable s).setReg x b := by
  simp only [observable_eq, State.setReg]

@[simp] theorem observable_setFlag (f : Bool) :
    observable (s.setFlag f) = (observable s).setFlag f := by
  simp only [State.setFlag, observable_setReg]

@[simp] theorem observable_setI (a : Word) : observable (s.setI a) = (observable s).setI a := by
  simp only [observable_eq, State.setI]

@[simp] theorem observable_setPc (a : Word) : observable (s.setPc a) = (observable s).setPc a := by
  simp only [observable_eq, State.setPc]

@[simp] theorem observable_setDt (b : Byte) : observable (s.setDt b) = (observable s).setDt b := by
  simp only [observable_eq, State.setDt]

@[simp] theorem observable_setSt (b : Byte) : observable (s.setSt b) = observable s := by
  simp only [observable_eq, State.setSt]

@[simp] theorem observable_setFb (p : Plane) : observable (s.setFb p) = (observable s).setFb p := by
  simp only [observable_eq, State.setFb]

@[simp] theorem observable_markRedraw (c : Bool) :
    observable (s.markRedraw c) = observable s := by
  simp only [observable_eq, State.markRedraw]

@[simp] theorem observable_advance : observable s.advance = (observable s).advance := by
  simp only [State.advance, observable_setPc, observable_pc]

@[simp] theorem observable_writeMem (a : Nat) (b : Byte) :
    observable (s.writeMem a b) = (observable s).writeMem a b := by
  simp only [observable_eq, State.writeMem]

@[simp] theorem observable_raise (c : FaultCause) :
    observable (s.raise c) = (observable s).raise c := by
  simp only [observable_eq, State.raise]

@[simp] theorem observable_skipIf (c : Bool) :
    observable (s.skipIf c) = (observable s).skipIf c := by cases c <;> simp [State.skipIf]

@[simp] theorem observable_plainResult (x : Reg) (b : Byte) :
    observable (s.plainResult x b) = (observable s).plainResult x b := by
  simp [State.plainResult]

@[simp] theorem observable_flaggedResult (x : Reg) (b : Byte) (f : Bool) :
    observable (s.flaggedResult x b f) = (observable s).flaggedResult x b f := by
  simp [State.flaggedResult]

@[simp] theorem observable_storeBlock (base n : Nat) :
    observable (s.storeBlock base n) = (observable s).storeBlock base n := by
  induction n with
  | zero => rfl
  | succ n ih => simp only [State.storeBlock, observable_writeMem, ← ih, observable_reg]

@[simp] theorem observable_loadBlock (base n : Nat) :
    observable (s.loadBlock base n) = (observable s).loadBlock base n := by
  induction n with
  | zero => rfl
  | succ n ih => simp only [State.loadBlock, observable_setReg, ← ih, observable_mem]

end

theorem SameOutcome.symm {a b : Host.Outcome State Fault Refusal} (h : SameOutcome a b) :
    SameOutcome b a := by
  rcases h with ⟨t, u, ha, hb, e⟩ | ⟨r, ha, hb⟩
  · exact .inl ⟨u, t, hb, ha, e.symm⟩
  · exact .inr ⟨r, hb, ha⟩

theorem SameOutcome.trans {a b c : Host.Outcome State Fault Refusal} (h : SameOutcome a b)
    (h' : SameOutcome b c) : SameOutcome a c := by
  rcases h with ⟨t, u, rfl, rfl, e⟩ | ⟨r, rfl, rfl⟩ <;>
    rcases h' with ⟨t', u', hb, rfl, e'⟩ | ⟨r', hb, rfl⟩ <;> cases hb
  · exact .inl ⟨t, u', rfl, rfl, e.trans e'⟩
  · exact .inr ⟨_, rfl, rfl⟩

theorem sameOutcome_next {t u : State} (h : observable t = observable u) :
    SameOutcome (.next t) (.next u) := .inl ⟨t, u, rfl, rfl, h⟩

theorem sameOutcome_raise (s : State) (c : FaultCause) :
    SameOutcome (.next (s.raise c)) (.next ((observable s).raise c)) :=
  sameOutcome_next (by simp)

theorem sameOutcome_checkRange (s : State) {t u : State} (sub : AccessKind) (base count : Nat)
    (h : observable t = observable u) :
    SameOutcome (s.conclude (checkRange sub base count t))
      ((observable s).conclude (checkRange sub base count u)) := by
  unfold checkRange
  split
  · exact sameOutcome_raise s _
  · exact sameOutcome_next h

theorem sameOutcome_call (addr : Addr12) (s : State) :
    SameOutcome (exec (.call addr) s) (exec (.call addr) (observable s)) := by
  by_cases h : s.sp.val < 16
  · rw [exec_call_free addr h, exec_call_free addr (s := observable s) h]
    refine sameOutcome_next (observable_stack_congr s _ _ fun k hk => ?_)
    by_cases hks : k.val = s.sp.val
    · simp [hks]
    · have live : k.val < s.sp.val := by dsimp only at hk; omega
      rw [stack_set_other s _ h hks, stack_set_other (observable s) _ h hks,
        observable_stack_live s live]
  · have hfull : s.sp.val = 16 := by have := s.sp.isLt; omega
    rw [exec_call_full addr hfull, exec_call_full addr (s := observable s) hfull]
    exact sameOutcome_raise s _

theorem sameOutcome_ret (s : State) : SameOutcome (exec .ret s) (exec .ret (observable s)) := by
  by_cases h : 0 < s.sp.val
  · have hlt := s.sp.isLt
    have top := observable_stack_live s (k := ⟨s.sp.val - 1, by omega⟩) (by dsimp only; omega)
    have topPc : (observable s).stack[s.sp.val - 1] = s.stack[s.sp.val - 1] := top
    rw [exec_ret_live h, exec_ret_live (s := observable s) h]
    simp only [observable_sp, topPc]
    refine sameOutcome_next (observable_stack_congr s _ _ fun k hk => ?_)
    exact (observable_stack_live s (by dsimp only at hk; omega)).symm
  · have hempty : s.sp.val = 0 := by omega
    rw [exec_ret_empty hempty, exec_ret_empty (s := observable s) hempty]
    exact sameOutcome_raise s _

/-- An instruction does the same to a state and to what is observable of it. -/
theorem exec_observable (i : Instr) (s : State) :
    SameOutcome (exec i s) (exec i (observable s)) := by
  cases i with
  | ret => exact sameOutcome_ret s
  | call addr => exact sameOutcome_call addr s
  | drw | storeRegs | loadRegs =>
    simp only [exec, execDrw, execStoreRegs, execLoadRegs, drawSprite_observable,
      blockBase_observable]
    exact sameOutcome_checkRange s _ _ _ (by simp)
  | _ => exact sameOutcome_next (by simp)

theorem step_observable (s : State) : SameOutcome (step s) (step (observable s)) := by
  simp only [step, observable_fault, fetch_observable]
  split
  · exact .inr ⟨_, rfl, rfl⟩
  · split
    · exact sameOutcome_raise s _
    · split
      · exact sameOutcome_raise s _
      · exact exec_observable _ s

/-- Settles O52: both STEPs do what the STEP from the observable state does. -/
theorem hiddenStateIsNeverRead : Obligations.HiddenStateIsNeverRead := fun s s' h =>
  (step_observable s).trans (h ▸ (step_observable s').symm)

end Sys2Proof.Machine
end

section
/-! PROOFS. Memory: the number a fetched word has, the fetch outside memory, and LD [I],Vx followed
by a fetch of what it stored (spec/20_memory.md). -/
namespace Sys2Proof.Machine

/-! ### Fetch -/

/-- The byte at the lower address is the high byte (R53). -/
theorem wordOfBytes_toNat (hi lo : Byte) :
    (wordOfBytes hi lo).toNat = hi.toNat * 256 + lo.toNat := by
  rw [wordOfBytes, BitVec.toNat_append, ← Nat.shiftLeft_add_eq_or_of_lt lo.isLt, Nat.shiftLeft_eq]

/-- Settles O4: inside memory a fetch answers the two bytes at PC. -/
theorem fetchIsBigEndian : Obligations.FetchIsBigEndian := fun s h =>
  ⟨_, s.fetch_inside h, wordOfBytes_toNat _ _⟩

/-- Settles O5: of the cases of a STEP, only the fetch fault has its PC outside memory. -/
theorem fetchPastMemoryFaults : Obligations.FetchPastMemoryFaults := by
  refine ⟨fun s hf hpc => ?_, fun s h => ⟨_, s.fetch_inside h⟩⟩
  rcases step_cases s hf with ⟨-, e⟩ | ⟨w, r, hin, -⟩ | ⟨w, i, hin, -⟩
  · exact e
  · omega
  · omega

/-! ### LD [I], Vx -/

/-- LD [I], Vx completes where its whole block is inside memory (R60, R164). -/
theorem exec_storeRegs_inside (x : Reg) {s : State} (h : s.i.toNat + x.toNat ≤ 4095) :
    exec (.storeRegs x) s = .next (s.storeBlock s.i.toNat (x.toNat + 1)).advance := by
  show s.conclude (checkRange .write s.i.toNat (x.toNat + 1) _) = _
  rw [checkRange_inside _ _ (by omega), State.conclude_ok]
  rfl

/-- The byte stored from register `k`, at any spelling `a` of its address. -/
theorem read_storeBlock_of_reg {x k : Reg} {s : State} {a : Nat} (hw : s.mem.wf = true)
    (h : s.i.toNat + x.toNat ≤ 4095) (hk : k.toNat ≤ x.toNat) (ha : a = s.i.toNat + k.toNat) :
    (s.storeBlock s.i.toNat (x.toNat + 1)).mem.read a = s.reg k := by
  rw [ha, s.storeBlock_read _ _ hw (by omega) (by omega), BitVec.ofNat_toNat, BitVec.setWidth_eq]

/-- Settles O39: both bytes fetched are read from the memory the store left. -/
theorem fetchSeesTheStore : Obligations.FetchSeesTheStore := by
  intro x s p hw hi hp
  refine ⟨_, _, _, exec_storeRegs_inside x hi, State.fetch_inside _ hp,
    fun k hk => ⟨?_, ?_⟩, ?_, ?_⟩
  · exact read_storeBlock_of_reg hw hi hk
  · exact read_storeBlock_of_reg hw hi hk
  · exact fun hout => s.storeBlock_read_other _ _ (by rw [State.setPc_pc]; omega)
  · exact fun hout => s.storeBlock_read_other _ _ (by rw [State.setPc_pc]; omega)

end Sys2Proof.Machine
end

section
/-! PROOFS. The decoder and the encoder (spec/30_encoding.md): the words that decode to an
instruction and the words that are refused, each said once, and from them the round trips and the
rows of the opcode table. -/
namespace Sys2Proof.Machine

/-! ### A word put together from its fields -/

/-- Two fields that lie side by side, the lower `m` bits wide from bit 0, make one field. -/
theorem extract_eq_append (w : Word) (m n : Nat) :
    w.extractLsb' 0 (n + m) = w.extractLsb' m n ++ w.extractLsb' 0 m :=
  (BitVec.extractLsb'_append_extractLsb'_eq_extractLsb' (Nat.zero_add m).symm).symm

theorem addrField_eq (w : Word) : addrField w = nibbleB w ++ lowByte w := extract_eq_append w 8 4

theorem lowByte_eq (w : Word) : lowByte w = nibbleC w ++ nibbleD w := extract_eq_append w 4 4

theorem eq_formAddr {w : Word} {a : Nibble} (h : nibbleA w = a) : w = formAddr a (addrField w) := by
  subst h
  exact BitVec.extractLsb'_eq_self.symm.trans (extract_eq_append w 12 4)

theorem eq_formXkk {w : Word} {a : Nibble} (h : nibbleA w = a) :
    w = formXkk a (nibbleB w) (lowByte w) :=
  (eq_formAddr h).trans (congrArg (formAddr a) (addrField_eq w))

theorem eq_formXyn {w : Word} {a d : Nibble} (h : nibbleA w = a) (hd : nibbleD w = d) :
    w = formXyn a (nibbleB w) (nibbleC w) d := by
  subst hd
  exact (eq_formXkk h).trans (congrArg (formXkk a (nibbleB w)) (lowByte_eq w))

theorem eq_formX {w : Word} {low : Byte} (h : nibbleA w = 0xF#4) (hl : lowByte w = low) :
    w = formX (nibbleB w) low := hl ▸ eq_formXkk h

/-! ### Decoding the encoding -/

theorem decodeWord_encode (i : Instr) : decodeWord (encode i) = .ok i := by
  cases i with
  | cls | ret => rfl
  | jp | call | seImm | sneImm | seReg | ldImm | addImm | sneReg | ldI | drw =>
    simp [encode, decodeWord]
  | ldReg | orReg | andReg | xorReg | addReg | subReg | shr | subnReg | shl =>
    simp [encode, decodeWord, decodeFamily8]
  | ldVxDt | ldDtVx | ldStVx | addI | ldF | storeRegs | loadRegs =>
    simp [encode, formX, decodeWord, decodeFamilyF]

/-- Settles O9: the two bytes of the encoding make the word again. -/
theorem decodeOfEncodeIsIdentity : Obligations.DecodeOfEncodeIsIdentity := by
  intro i rest _
  refine ⟨decodeWord_encode i, ?_⟩
  show (decodeWord (wordOfBytes (highByte (encode i)) (lowByte (encode i)))).map (·, rest) = _
  rw [wordOfBytes_halves, decodeWord_encode]
  rfl

/-! ### The words that decode to an instruction -/

/-- The words of an instruction: its encoding, with any value in the nibble that carries no meaning
(nibble d of families 5 and 9, R90; nibble c of the two shifts, R83). -/
def IsWordOf (w : Word) : Instr → Prop
  | .seReg x y => ∃ d, w = formXyn 0x5#4 x y d
  | .sneReg x y => ∃ d, w = formXyn 0x9#4 x y d
  | .shr x => ∃ y, w = formXyn 0x8#4 x y 0x6#4
  | .shl x => ∃ y, w = formXyn 0x8#4 x y 0xE#4
  | i => w = encode i

theorem isWordOf_of_decodeFamily8 {w : Word} {i : Instr} (hA : nibbleA w = 0x8#4)
    (h : decodeFamily8 (nibbleB w) (nibbleC w) (nibbleD w) = .ok i) : IsWordOf w i := by
  unfold decodeFamily8 at h
  split at h <;> cases h
  case h_7 hD | h_9 hD => exact ⟨_, eq_formXyn hA hD⟩
  all_goals exact eq_formXyn hA ‹_›

theorem isWordOf_of_decodeFamilyF {w : Word} {i : Instr} (hA : nibbleA w = 0xF#4)
    (h : decodeFamilyF (nibbleB w) (lowByte w) = .ok i) : IsWordOf w i := by
  unfold decodeFamilyF at h
  split at h <;> cases h
  all_goals exact eq_formX hA ‹_›

theorem isWordOf_of_decodeFamily0 {w : Word} {i : Instr} (h : decodeFamily0 w = .ok i) :
    IsWordOf w i := by
  unfold decodeFamily0 at h
  split_ifs at h with h1 h2 <;> cases h
  · exact h1
  · exact h2

/-- The last of the sixteen families, by elimination. -/
theorem nibble_eq_fifteen : ∀ a : Nibble, a ∉ [0x0#4, 0x1#4, 0x2#4, 0x3#4, 0x4#4, 0x5#4, 0x6#4,
    0x7#4, 0x8#4, 0x9#4, 0xA#4, 0xB#4, 0xC#4, 0xD#4, 0xE#4] → a = 0xF#4 := by decide

/-- What decodes to an instruction is a word of it, family by family (R85, R86). -/
theorem isWordOf_of_decodeWord {w : Word} {i : Instr} (h : decodeWord w = .ok i) :
    IsWordOf w i := by
  unfold decodeWord at h
  split at h
  case h_1 => exact isWordOf_of_decodeFamily0 h
  case h_9 hA => exact isWordOf_of_decodeFamily8 hA h
  case h_16 => exact isWordOf_of_decodeFamilyF (nibble_eq_fifteen _ (by simp_all)) h
  all_goals cases h
  case h_2 hA | h_3 hA | h_11 hA => exact eq_formAddr hA
  case h_4 hA | h_5 hA | h_7 hA | h_8 hA => exact eq_formXkk hA
  case h_6 hA | h_10 hA => exact ⟨_, eq_formXyn hA rfl⟩
  case h_14 hA => exact eq_formXyn hA rfl

/-! ### The canonical word -/

theorem formXyn_clear_last (a : Nibble) (x y : Reg) (d : Nibble) :
    formXyn a x y d &&& 0xFFF0#16 = formXyn a x y 0#4 := by
  refine BitVec.eq_of_getLsbD_eq fun k hk => ?_
  simp only [BitVec.getLsbD_and, getLsbD_formXyn]
  interval_cases k <;> simp

theorem formXyn_clear_second (a : Nibble) (x y : Reg) (d : Nibble) :
    formXyn a x y d &&& 0xFF0F#16 = formXyn a x 0#4 d := by
  refine BitVec.eq_of_getLsbD_eq fun k hk => ?_
  simp only [BitVec.getLsbD_and, getLsbD_formXyn]
  interval_cases k <;> simp

theorem canonicalWord_of_isWordOf {w : Word} {i : Instr} (h : IsWordOf w i) :
    canonicalWord w = encode i := by
  cases i with
  | seReg | sneReg =>
    obtain ⟨d, rfl⟩ := h
    simp [canonicalWord, encode, formXyn_clear_last]
  | shr | shl =>
    obtain ⟨y, rfl⟩ := h
    simp [canonicalWord, encode, formXyn_clear_second]
  | cls | ret => obtain rfl := h; rfl
  | jp | call | seImm | sneImm | ldImm | addImm | ldReg | orReg | andReg | xorReg | addReg | subReg
  | subnReg | ldI | drw | ldVxDt | ldDtVx | ldStVx | addI | ldF | storeRegs | loadRegs =>
    obtain rfl := h
    simp [canonicalWord, encode, formX]

/-- Settles O10: a word of an instruction differs from its encoding in the meaningless bits only. -/
theorem encodeOfDecodeIsCanonical : Obligations.EncodeOfDecodeIsCanonical := fun _ _ h =>
  (canonicalWord_of_isWordOf (isWordOf_of_decodeWord h)).symm

/-! ### The rows of the opcode table -/

theorem selects_of_isWordOf {w : Word} {i : Instr} (h : IsWordOf w i) :
    (rowOf i).selects w = true := by
  cases i with
  | cls | ret => obtain rfl := h; rfl
  | jp | call | seImm | sneImm | ldImm | addImm | ldI | drw =>
    obtain rfl := h
    exact OpcodeRow.selects_of_eq (formAddr_family _ _)
  | seReg | sneReg =>
    obtain ⟨d, rfl⟩ := h
    exact OpcodeRow.selects_of_eq (formAddr_family _ _)
  | ldReg | orReg | andReg | xorReg | addReg | subReg | subnReg =>
    obtain rfl := h
    exact OpcodeRow.selects_of_eq (formXyn_family _ _ _ _)
  | shr | shl =>
    obtain ⟨y, rfl⟩ := h
    exact OpcodeRow.selects_of_eq (formXyn_family _ _ _ _)
  | ldVxDt | ldDtVx | ldStVx | addI | ldF | storeRegs | loadRegs =>
    obtain rfl := h
    exact OpcodeRow.selects_of_eq (formX_family _ _)

theorem rowOf_mem_opcodeTable (i : Instr) : rowOf i ∈ opcodeTable := by
  cases i <;> simp [opcodeTable, oneOfEach, rowOf]

theorem opcodeTable_nodup : opcodeTable.Nodup := by decide

/-- Two rows of the table that agree on the bits both masks select are the same row. -/
theorem eq_of_patterns_agree : ∀ r ∈ opcodeTable, ∀ q ∈ opcodeTable,
    r.pattern &&& q.mask = q.pattern &&& r.mask → r = q := by decide

/-- No word selects two rows. -/
theorem eq_of_selects {w : Word} {r q : OpcodeRow} (hr : r ∈ opcodeTable) (hq : q ∈ opcodeTable)
    (h : r.selects w = true) (k : q.selects w = true) : r = q := by
  refine eq_of_patterns_agree r hr q hq ?_
  rw [← beq_iff_eq.1 h, ← beq_iff_eq.1 k, BitVec.and_assoc, BitVec.and_assoc,
    BitVec.and_comm r.mask]

theorem filter_selects_of_decodeWord {w : Word} {i : Instr} (h : decodeWord w = .ok i) :
    opcodeTable.filter (fun row => row.selects w) = [rowOf i] := by
  have hi := selects_of_isWordOf (isWordOf_of_decodeWord h)
  have hm := rowOf_mem_opcodeTable i
  have he : ∀ row ∈ opcodeTable, row.selects w = (row == rowOf i) := fun row hrow =>
    Bool.eq_iff_iff.2 ⟨fun hs => beq_iff_eq.2 (eq_of_selects hrow hm hs hi),
      fun hs => beq_iff_eq.1 hs ▸ hi⟩
  rw [List.filter_congr he, List.filter_beq, List.count_eq_one_of_mem opcodeTable_nodup hm]
  rfl

/-- Settles O8: a decoded word selects its instruction's row and no other, a refused word none. -/
theorem eachWordSelectsItsRowOrNone : Obligations.EachWordSelectsItsRowOrNone := by
  intro w
  cases h : decodeWord w with
  | ok i => exact .inl ⟨i, rfl, filter_selects_of_decodeWord h⟩
  | error r =>
    have hl := legalWord_of_decodeWord_error h
    exact .inr ⟨r, rfl, List.filter_eq_nil_iff.2 fun row hrow hs =>
      absurd hl (by simpa [legalWord] using ⟨row, hrow, hs⟩)⟩

/-! ### The words the decoder refuses, by number -/

theorem nibbleA_eq_iff (w : Word) (a : Nibble) : nibbleA w = a ↔ w.toNat / 0x1000 = a.toNat := by
  rw [BitVec.toNat_eq, nibbleA, BitVec.extractLsb'_toNat, Nat.shiftRight_eq_div_pow]
  omega

theorem nibbleD_toNat (w : Word) : (nibbleD w).toNat = w.toNat % 16 := by
  simp [nibbleD]

theorem lowByte_toNat (w : Word) : (lowByte w).toNat = w.toNat % 256 := by
  simp [lowByte]

theorem decodeFamily0_eq_error_iff (w : Word) (r : DecodeRefusal) :
    decodeFamily0 w = .error r ↔ .family0 = r ∧ w.toNat ≠ 0x00E0 ∧ w.toNat ≠ 0x00EE := by
  unfold decodeFamily0
  split_ifs with h1 h2
  · simp [h1]
  · simp [h2]
  · simp_all [BitVec.toNat_eq]

/-- The last nibbles of family 8 that are no operation, by elimination (R91). -/
theorem nibble_toNat_of_unassigned8 : ∀ d : Nibble, d ∉ [0x0#4, 0x1#4, 0x2#4, 0x3#4, 0x4#4, 0x5#4,
    0x6#4, 0x7#4, 0xE#4] → d.toNat ∈ [0x8, 0x9, 0xA, 0xB, 0xC, 0xD, 0xF] := by decide

theorem decodeFamily8_eq_error_iff (x y : Reg) (d : Nibble) (r : DecodeRefusal) :
    decodeFamily8 x y d = .error r ↔
      .family8 = r ∧ d.toNat ∈ [0x8, 0x9, 0xA, 0xB, 0xC, 0xD, 0xF] := by
  unfold decodeFamily8
  split
  case h_10 =>
    have hd := nibble_toNat_of_unassigned8 d (by simp_all)
    simp [hd]
  all_goals simp

theorem decodeFamilyF_eq_error_iff (x : Reg) (low : Byte) (r : DecodeRefusal) :
    decodeFamilyF x low = .error r ↔
      .familyF = r ∧ low.toNat ∉ [0x07, 0x15, 0x18, 0x1E, 0x29, 0x55, 0x65] := by
  unfold decodeFamilyF
  split
  case h_8 => simp_all [BitVec.toNat_eq]
  all_goals simp

/-- Every refusal, by the family it comes from (R95). -/
theorem decodeWord_eq_error_iff (w : Word) (r : DecodeRefusal) :
    decodeWord w = .error r ↔
      (nibbleA w = 0x0#4 ∧ decodeFamily0 w = .error r) ∨
      (nibbleA w = 0x8#4 ∧ decodeFamily8 (nibbleB w) (nibbleC w) (nibbleD w) = .error r) ∨
      (nibbleA w = 0xB#4 ∧ .familyB = r) ∨ (nibbleA w = 0xC#4 ∧ .familyC = r) ∨
      (nibbleA w = 0xE#4 ∧ .familyE = r) ∨
      (nibbleA w = 0xF#4 ∧ decodeFamilyF (nibbleB w) (lowByte w) = .error r) := by
  unfold decodeWord
  split
  case h_16 =>
    have hA : nibbleA w = 0xF#4 := nibble_eq_fifteen _ (by simp_all)
    simp [hA]
  all_goals simp [*]

/-- Settles O7: each refusal's family, with the family's own condition, read as numbers. -/
theorem illegalWordsAreThoseListed : Obligations.IllegalWordsAreThoseListed := by
  intro w
  simp [decodeWord_eq_error_iff, decodeFamily0_eq_error_iff, decodeFamily8_eq_error_iff,
    decodeFamilyF_eq_error_iff, nibbleA_eq_iff, nibbleD_toNat, lowByte_toNat]

/-- Settles O11: the decoder run on each word. -/
theorem specWordsDecode : Obligations.SpecWordsDecode :=
  ⟨rfl, rfl, rfl, rfl, rfl, rfl, rfl, rfl, rfl, rfl, rfl, rfl, rfl⟩

end Sys2Proof.Machine
end

section
/-! PROOFS. The control-flow instructions (spec/40_flow.md): the words of an instruction decode to
it, the report of a STEP that executes JP, and the conditional skip, each said once. -/
namespace Sys2Proof.Machine

/-! ### Encodings -/

/-- The converse of `isWordOf_of_decodeWord`: every word of an instruction decodes to it, whatever
its meaningless nibble holds (R83, R90). -/
theorem decodeWord_of_isWordOf {w : Word} {i : Instr} (h : IsWordOf w i) :
    decodeWord w = .ok i := by
  cases i with
  | seReg | sneReg =>
    obtain ⟨d, rfl⟩ := h
    simp [decodeWord]
  | shr | shl =>
    obtain ⟨y, rfl⟩ := h
    simp [decodeWord, decodeFamily8]
  | _ =>
    obtain rfl := h
    exact decodeWord_encode _

/-! ### RET and CALL -/

/-- Settles O18: with SP = k + 1 the entry popped is entry k, and no entry is written. -/
theorem retPopsOrUnderflows : Obligations.RetPopsOrUnderflows := by
  refine ⟨rfl, fun s h => exec_ret_empty h, fun s k h => ?_⟩
  refine ⟨_, exec_ret_live (h ▸ k.val.succ_pos), ?_, ⟨?_, fun _ => rfl⟩, ?_⟩
  · simp [h]
  · simp [h]
  · exact { Frame.refl s _ with stackPointer := nofun }

/-- An address field as a word (R84), in the statements' spelling. -/
theorem addrWord_eq_ofNat (addr : Addr12) : addrWord addr = BitVec.ofNat 16 addr.toNat :=
  (BitVec.ofNat_toNat 16 addr).symm

/-- Settles O20: with SP = k < 16 the entry written is entry k; the sixteenth entry is k = 15. -/
theorem callPushesOrOverflows : Obligations.CallPushesOrOverflows := by
  intro addr
  refine ⟨decodeWord_encode (.call addr), fun s h => exec_call_full addr h, fun s k h => ?_⟩
  have hfree : s.sp.val < 16 := h ▸ k.isLt
  have hother (j : Fin 16) (hj : j.val ≠ k.val) :
      (s.stack.set s.sp.val (returnAddr s) hfree)[j] = s.stack[j] :=
    stack_set_other s _ hfree (h ▸ hj)
  refine ⟨_, exec_call_free addr hfree, addrWord_eq_ofNat addr, ⟨?_, ?_, ?_⟩, ?_⟩
  · exact congrArg (· + 1) h
  · simp [h, returnAddr]
  · exact fun j hj => hother j (Fin.val_ne_of_ne hj)
  · exact { Frame.refl s _ with
      stackPointer := nofun
      stackEntries := fun j hj => hother j (List.ne_of_not_mem_cons hj) }

/-! ### JP -/

/-- Where a `JP` is fetched, PC points at a jump to itself iff its address is PC. -/
theorem State.atSelfJump_of_decode {s : State} {w : Word} {addr : Addr12} (hw : s.fetch = .ok w)
    (hd : decodeWord w = .ok (.jp addr)) : s.atSelfJump = true ↔ addr.toNat = s.pc.toNat := by
  have hs : s.atSelfJump = (addrWord addr == s.pc) := by simp only [State.atSelfJump, hw, hd]
  rw [hs, beq_iff_eq, BitVec.toNat_eq, addrWord_toNat]

/-- The report of a STEP that executes `JP` (R112, R220). -/
theorem stepResult_of_decode_jp {s : State} {w : Word} {addr : Addr12} (hf : s.fault = none)
    (hw : s.fetch = .ok w) (hd : decodeWord w = .ok (.jp addr)) :
    stepResult s = if s.cfg.haltOnSelfJump = true ∧ addr.toNat = s.pc.toNat
      then .selfLoopHalt s.pc else .next := by
  have hstep : step s = .next (s.setPc (addrWord addr)) := step_of_decode s hf hw hd
  simp only [stepResult, hstep, State.setPc_fault, hf, Bool.and_eq_true,
    State.atSelfJump_of_decode hw hd]

/-- Settles O19: JP writes PC alone, and its report follows from the word fetched. -/
theorem jpSetsThePc : Obligations.JpSetsThePc := by
  intro addr
  have hd : decodeWord (0x1#4 ++ addr) = .ok (.jp addr) := decodeWord_encode (.jp addr)
  refine ⟨hd, fun s => ?_, fun s hf hw => stepResult_of_decode_jp hf hw hd⟩
  exact ⟨_, rfl, addrWord_eq_ofNat addr, trivial, (Frame.refl s _).setPc _⟩

/-! ### Conditional skips -/

/-- An instruction that only skips on `c` completes with PC past the next instruction iff the
proposition that `c` decides holds (R26). -/
theorem completesWith_skipIf {i : Instr} {s : State} {c : Bool} {p : Prop} [Decidable p]
    (he : exec i s = .next (s.skipIf c)) (hc : c = true ↔ p) :
    CompletesWith i s (if p then s.pc + 4#16 else s.pc + 2#16) {} (fun _ => True) :=
  ⟨_, he, by simp only [State.skipIf_pc, hc], trivial, (Frame.refl s _).skipIf c⟩

/-- The test of SE, as a comparison of unsigned numbers. -/
theorem byte_beq_iff (a b : Byte) : (a == b) = true ↔ a.toNat = b.toNat := by
  rw [beq_iff_eq, BitVec.toNat_eq]

/-- The test of SNE, as a comparison of unsigned numbers. -/
theorem byte_bne_iff (a b : Byte) : (a != b) = true ↔ a.toNat ≠ b.toNat := by
  rw [bne_iff_ne, Ne, BitVec.toNat_eq]

/-- Settles O22: both instructions only skip, on the test of the register and the immediate. -/
theorem skipsOnImmediate : Obligations.SkipsOnImmediate := by
  intro x kk
  refine ⟨decodeWord_encode (.seImm x kk), decodeWord_encode (.sneImm x kk), fun s => ⟨?_, ?_⟩⟩
  · exact completesWith_skipIf rfl (byte_beq_iff _ _)
  · exact completesWith_skipIf rfl (byte_bne_iff _ _)

/-- Settles O23: nibble d is no operand, and both instructions only skip, on the test of the two
registers. -/
theorem skipsOnRegister : Obligations.SkipsOnRegister := by
  intro x y
  refine ⟨fun d => ⟨?_, ?_⟩, fun s => ⟨?_, ?_⟩⟩
  · exact decodeWord_of_isWordOf (i := .seReg x y) ⟨d, rfl⟩
  · exact decodeWord_of_isWordOf (i := .sneReg x y) ⟨d, rfl⟩
  · exact completesWith_skipIf rfl (byte_beq_iff _ _)
  · exact completesWith_skipIf rfl (byte_bne_iff _ _)

end Sys2Proof.Machine
end

section
/-! PROOFS. Loads, additions and family 8 (spec/41_alu.md): what an operation with and without a flag
leaves in its destination and in VF, the values as numbers, and from them the statements. The
identities of R144 and the cases of R145 follow from the statements about each operation. -/
namespace Sys2Proof.Machine

/-! ### The destination and the flag register after an operation -/

@[simp] theorem State.plainResult_reg_dest (s : State) (x : Reg) (b : Byte) :
    (s.plainResult x b).reg x = b := by
  rw [State.plainResult_reg, if_pos rfl]

theorem State.flaggedResult_reg_vf (s : State) (x : Reg) (b : Byte) (f : Bool) :
    (s.flaggedResult x b f).reg 0xF#4 = flagByte f :=
  (s.flaggedResult_reg x 0xF#4 b f).trans (if_pos rfl)

theorem State.flaggedResult_reg_dest (s : State) {x : Reg} (b : Byte) (f : Bool)
    (hx : x ≠ 0xF#4) : (s.flaggedResult x b f).reg x = b :=
  (s.flaggedResult_reg x x b f).trans ((if_neg hx).trans (if_pos rfl))

/-- An operation without a flag completes as soon as its destination's new value says all that is
asked of the next state (R130). -/
theorem completesWith_plainResult {i : Instr} {s : State} {x : Reg} {b : Byte} {post : State → Prop}
    (he : exec i s = .next (s.plainResult x b)) (hp : ∀ t : State, t.reg x = b → post t) :
    CompletesWith i s (s.pc + 2#16) { regs := [x] } post :=
  ⟨_, he, rfl, hp _ (s.plainResult_reg_dest x b), .plainResult s x b⟩

/-- An operation with a flag: VF holds the flag, and the destination the result unless it is VF
itself (R133). -/
theorem completesWith_flaggedResult {i : Instr} {s : State} {x : Reg} {b : Byte} {f : Bool}
    {post : State → Prop} (he : exec i s = .next (s.flaggedResult x b f))
    (hp : ∀ t : State, (x ≠ 0xF#4 → t.reg x = b) → t.reg 0xF#4 = flagByte f → post t) :
    CompletesWith i s (s.pc + 2#16) { regs := [x, 0xF#4] } post :=
  ⟨_, he, rfl, hp _ (s.flaggedResult_reg_dest b f) (s.flaggedResult_reg_vf x b f),
    .flaggedResult s x b f⟩

/-! ### Results and flags as numbers -/

/-- Subtraction modulo 256, as the remainder of the difference (R143). -/
theorem byte_sub_toNat (a b : Byte) : ((a - b).toNat : Int) = (a.toNat - b.toNat : Int) % 256 := by
  rw [BitVec.toNat_sub]
  omega

theorem byte_shiftRight_toNat (a : Byte) : (a >>> 1).toNat = a.toNat / 2 := by
  rw [BitVec.toNat_ushiftRight, Nat.shiftRight_eq_div_pow, pow_one]

theorem byte_shiftLeft_toNat (a : Byte) : (a <<< 1).toNat = a.toNat * 2 % 256 := by
  rw [BitVec.toNat_shiftLeft, Nat.shiftLeft_eq, pow_one]

theorem carryFlag_toNat (a b : Byte) :
    (flagByte (carryOf a b)).toNat = if a.toNat + b.toNat > 255 then 1 else 0 := by
  simp [carryOf]

theorem greaterFlag_toNat (a b : Byte) :
    (flagByte (greaterOf a b)).toNat = if a.toNat > b.toNat then 1 else 0 := by
  simp [greaterOf]

theorem flagByte_toNat_eq_toNat (f : Bool) : (flagByte f).toNat = f.toNat := by
  cases f <;> rfl

/-- The flag made of one bit of a byte. -/
theorem bitFlag_toNat (a : Byte) (k : Nat) :
    (flagByte (a.getLsbD k)).toNat = a.toNat / 2 ^ k % 2 :=
  (flagByte_toNat_eq_toNat _).trans (Nat.toNat_testBit a.toNat k)

theorem lowBitFlag_toNat (a : Byte) : (flagByte (lowBitOf a)).toNat = a.toNat % 2 := by
  rw [lowBitOf, bitFlag_toNat, pow_zero, Nat.div_one]

/-- Bit 7 of a byte is its quotient by 128. -/
theorem highBitFlag_toNat (a : Byte) : (flagByte (highBitOf a)).toNat = a.toNat / 128 := by
  rw [highBitOf, bitFlag_toNat]
  omega

/-! ### Operations without a flag -/

/-- Settles O24: the destination holds the immediate. -/
theorem ldImmediateWritesTheByte : Obligations.LdImmediateWritesTheByte := fun x kk =>
  ⟨decodeWord_encode (.ldImm x kk), fun _ => completesWith_plainResult rfl fun _ h => h⟩

/-- Settles O25: the sum of two bytes is modulo 256, and the frame names no flag. -/
theorem addImmediateWrapsWithoutFlag : Obligations.AddImmediateWrapsWithoutFlag := fun x kk =>
  ⟨decodeWord_encode (.addImm x kk), fun s =>
    completesWith_plainResult rfl fun _ h => h ▸ BitVec.toNat_add (s.reg x) kk⟩

/-- Settles O26: the destination holds the source's old value. -/
theorem ldRegisterCopies : Obligations.LdRegisterCopies := fun x y =>
  ⟨decodeWord_encode (.ldReg x y), fun _ => completesWith_plainResult rfl fun _ h => h⟩

/-- Settles O27: each operation's result has the bits its own truth table gives. -/
theorem logicIsBitwiseWithoutFlag : Obligations.LogicIsBitwiseWithoutFlag := by
  intro x y
  refine ⟨decodeWord_encode (.orReg x y), decodeWord_encode (.andReg x y),
    decodeWord_encode (.xorReg x y), fun s => ⟨?_, ?_, ?_⟩⟩
  · exact completesWith_plainResult rfl fun _ h _ => h ▸ BitVec.getLsbD_or
  · exact completesWith_plainResult rfl fun _ h _ => h ▸ BitVec.getLsbD_and
  · exact completesWith_plainResult rfl fun _ h _ => h ▸ BitVec.getLsbD_xor

/-! ### Operations with a flag -/

/-- Settles O28: the sum modulo 256, and its carry. -/
theorem addRegisterSetsCarry : Obligations.AddRegisterSetsCarry := fun x y =>
  ⟨decodeWord_encode (.addReg x y), fun s => completesWith_flaggedResult rfl fun _ hr hv =>
    ⟨fun hx => hr hx ▸ BitVec.toNat_add (s.reg x) (s.reg y), hv ▸ carryFlag_toNat _ _⟩⟩

/-- Settles O29: the difference modulo 256, and the strict comparison. -/
theorem subRegisterSetsStrictFlag : Obligations.SubRegisterSetsStrictFlag := fun x y =>
  ⟨decodeWord_encode (.subReg x y), fun _ => completesWith_flaggedResult rfl fun _ hr hv =>
    ⟨fun hx => hr hx ▸ byte_sub_toNat _ _, hv ▸ greaterFlag_toNat _ _⟩⟩

/-- Settles O30: the difference and the comparison of SUB, with the operands exchanged. -/
theorem subnRegisterSubtractsInReverse : Obligations.SubnRegisterSubtractsInReverse := fun x y =>
  ⟨decodeWord_encode (.subnReg x y), fun _ => completesWith_flaggedResult rfl fun _ hr hv =>
    ⟨fun hx => hr hx ▸ byte_sub_toNat _ _, hv ▸ greaterFlag_toNat _ _⟩⟩

/-- Settles O31: nibble y is no operand; a shift halves or doubles Vx, and the bit it drops is the
remainder or the overflow. -/
theorem shiftsSetTheBitShiftedOut : Obligations.ShiftsSetTheBitShiftedOut := by
  intro x
  refine ⟨fun y => ⟨?_, ?_⟩, fun s => ⟨?_, ?_⟩⟩
  · exact decodeWord_of_isWordOf (i := .shr x) ⟨y, rfl⟩
  · exact decodeWord_of_isWordOf (i := .shl x) ⟨y, rfl⟩
  · exact completesWith_flaggedResult rfl fun _ hr hv =>
      ⟨fun hx => hr hx ▸ byte_shiftRight_toNat _, hv ▸ lowBitFlag_toNat _⟩
  · exact completesWith_flaggedResult rfl fun _ hr hv =>
      ⟨fun hx => hr hx ▸ byte_shiftLeft_toNat _, hv ▸ highBitFlag_toNat _⟩

/-! ### What follows for results and flags together -/

/-- The flag's clause of an operation's statement, for any destination. -/
theorem CompletesWith.exists_flag {i : Instr} {s : State} {p : Word} {w : Writes}
    {result flag : State → Prop} (h : CompletesWith i s p w (fun t => result t ∧ flag t)) :
    ∃ t, exec i s = .next t ∧ flag t :=
  h.imp fun _ ⟨he, _, ⟨_, hv⟩, _⟩ => ⟨he, hv⟩

/-- Both clauses, for a destination that the flag leaves alone. -/
theorem CompletesWith.exists_result_flag {i : Instr} {s : State} {p : Word} {w : Writes} {x : Reg}
    {result flag : State → Prop}
    (h : CompletesWith i s p w (fun t => (x ≠ 0xF#4 → result t) ∧ flag t)) (hx : x ≠ 0xF#4) :
    ∃ t, exec i s = .next t ∧ result t ∧ flag t :=
  h.imp fun _ ⟨he, _, ⟨hr, hv⟩, _⟩ => ⟨he, hr hx, hv⟩

/-- SUBN is SUB with the operands exchanged, in result and flag (R141, R144). -/
theorem subn_eq_sub_exchanged {x y x' y' : Reg} {s s' : State} (hx : x ≠ 0xF#4) (hx' : x' ≠ 0xF#4)
    (ha : s'.reg x' = s.reg y) (hb : s'.reg y' = s.reg x) :
    ∃ t t', exec (.subnReg x y) s = .next t ∧ exec (.subReg x' y') s' = .next t' ∧
      t.reg x = t'.reg x' ∧ t.reg 0xF#4 = t'.reg 0xF#4 := by
  obtain ⟨t, he, hr, hv⟩ := ((subnRegisterSubtractsInReverse x y).2 s).exists_result_flag hx
  obtain ⟨t', he', hr', hv'⟩ := ((subRegisterSetsStrictFlag x' y').2 s').exists_result_flag hx'
  rw [ha, hb] at hr' hv'
  refine ⟨t, t', he, he', BitVec.eq_of_toNat_eq ?_, BitVec.eq_of_toNat_eq (hv.trans hv'.symm)⟩
  exact Int.ofNat_inj.1 (hr.trans hr'.symm)

/-- Settles O32: each identity from what the operation alone does; the flag is the 256 that the
result lacks or the bit it lost. -/
theorem arithmeticIdentities : Obligations.ArithmeticIdentities := by
  intro x y s hx
  obtain ⟨tAdd, hAdd, rAdd, vAdd⟩ := ((addRegisterSetsCarry x y).2 s).exists_result_flag hx
  obtain ⟨tSub, hSub, rSub, vSub⟩ := ((subRegisterSetsStrictFlag x y).2 s).exists_result_flag hx
  obtain ⟨hshr, hshl⟩ := (shiftsSetTheBitShiftedOut x).2 s
  obtain ⟨tShr, hShr, rShr, vShr⟩ := hshr.exists_result_flag hx
  obtain ⟨tShl, hShl, rShl, vShl⟩ := hshl.exists_result_flag hx
  refine ⟨⟨tAdd, hAdd, ?_⟩, ⟨tSub, hSub, ?_, ?_⟩,
    fun x' y' s' hx' ha hb => subn_eq_sub_exchanged hx hx' ha hb, ⟨tShr, hShr, ?_⟩,
    ⟨tShl, hShl, ?_⟩, ⟨_, rfl, ?_⟩, ⟨_, rfl, ?_⟩, ⟨_, rfl, ?_⟩⟩
  · rw [rAdd, vAdd]
    split <;> omega
  · simp [vSub]
  · intro hle
    omega
  · rw [rShr, vShr]
    omega
  · rw [rShl, vShl]
    omega
  · rw [State.plainResult_reg_dest, BitVec.xor_self]
    rfl
  · rw [State.plainResult_reg_dest, BitVec.or_self]
  · rw [State.plainResult_reg_dest, BitVec.and_self]

/-- Settles O33: the flag's clause of each operation holds with x = F, the result's with x not F;
nibble y of 8xy6 is ignored. -/
theorem flagRegisterAsOperand : Obligations.FlagRegisterAsOperand := by
  intro y s
  have hadd (a b : Reg) := (addRegisterSetsCarry a b).2 s
  have hsub (a b : Reg) := (subRegisterSetsStrictFlag a b).2 s
  have hsubn (a b : Reg) := (subnRegisterSubtractsInReverse a b).2 s
  obtain ⟨hword, -⟩ := shiftsSetTheBitShiftedOut y
  obtain ⟨-, hshift⟩ := shiftsSetTheBitShiftedOut 0xF#4
  obtain ⟨hshr, hshl⟩ := hshift s
  refine ⟨(hadd _ y).exists_flag, (hsub _ y).exists_flag, hshr.exists_flag,
    (hsubn _ y).exists_flag, hshl.exists_flag, fun hy => ⟨?_, ?_, ?_, ?_⟩, ?_, ?_, ?_⟩
  · exact (hadd y _).exists_result_flag hy
  · exact (hsub y _).exists_result_flag hy
  · exact (hsubn y _).exists_result_flag hy
  · exact fun z => (hword 0xF#4).1.trans (hword z).1.symm
  · rw [two_mul]
    exact (hadd _ _).exists_flag
  · simpa only [gt_iff_lt, lt_self_iff_false, if_false] using (hsub 0xF#4 0xF#4).exists_flag
  · simpa only [gt_iff_lt, lt_self_iff_false, if_false] using (hsubn 0xF#4 0xF#4).exists_flag

end Sys2Proof.Machine
end

section
/-! PROOFS. The index register, the font and the memory blocks (spec/42_index_memory.md): an
instruction that only writes I, and a range-checked instruction that completes or faults, each said
once, and from them the statements. -/
namespace Sys2Proof.Machine

/-! ### Instructions that write I -/

/-- An instruction that only writes I completes as soon as the new I says all that is asked of the
next state. -/
theorem completesWith_setI {i : Instr} {s : State} {a : Word} {post : State → Prop}
    (he : exec i s = .next (s.setI a).advance) (hp : ∀ t : State, t.i = a → post t) :
    CompletesWith i s (s.pc + 2#16) { index := true } post :=
  ⟨_, he, rfl, hp _ rfl, ((Frame.refl s _).setI rfl a).advance⟩

/-- Zero extension keeps the register's number (R162). -/
theorem regWord_toNat (s : State) (x : Reg) : (regWord s x).toNat = (s.reg x).toNat :=
  BitVec.toNat_setWidth_of_le (by decide)

/-- No glyph address lies beyond 432 + 255·5 (R163). -/
theorem glyphAddr_sum_le (s : State) (x : Reg) :
    s.cfg.fontBase.val + (s.reg x).toNat * 5 ≤ 1707 := by
  have hbase := s.cfg.fontBase.isLt
  have hreg := (s.reg x).isLt
  omega

/-- So the sum modulo 65536 is the sum itself. -/
theorem glyphAddr_toNat (s : State) (x : Reg) :
    (glyphAddr s x).toNat = s.cfg.fontBase.val + (s.reg x).toNat * 5 :=
  Nat.mod_eq_of_lt ((glyphAddr_sum_le s x).trans_lt (by decide))

/-- Settles O34: I holds the zero-extended address field. -/
theorem ldIndexZeroExtends : Obligations.LdIndexZeroExtends := fun addr =>
  ⟨decodeWord_encode (.ldI addr), fun _ =>
    completesWith_setI rfl fun _ h => h ▸ addrWord_toNat addr⟩

/-- Settles O35: the sum of I and the zero-extended register is modulo 65536, and the frame names no
register. -/
theorem addIndexWrapsAt65536 : Obligations.AddIndexWrapsAt65536 := by
  intro x
  refine ⟨decodeWord_encode (.addI x), fun s => completesWith_setI rfl fun t h => ?_⟩
  rw [h, BitVec.toNat_add, regWord_toNat]

/-- Settles O36: the bounds of FONT_BASE and of a byte keep the glyph's address below 65536. -/
theorem ldFontMultipliesTheWholeByte : Obligations.LdFontMultipliesTheWholeByte := by
  intro x
  refine ⟨decodeWord_encode (.ldF x), fun s => completesWith_setI rfl fun t h => ?_⟩
  rw [h, glyphAddr_toNat]
  exact ⟨rfl, glyphAddr_sum_le s x⟩

/-! ### Range-checked instructions -/

section
variable {i : Instr} {s t : State} {sub : AccessKind} {base count : Nat}
  (he : exec i s = s.conclude (checkRange sub base count t))
include he

/-- A range-checked effect takes place where its block is inside memory, or empty (R57, R60). -/
theorem exec_of_checkRange_inside (h : count = 0 ∨ base + count ≤ 4096) : exec i s = .next t := by
  rw [he, checkRange_inside sub t h, State.conclude_ok]

/-- Where some byte of its block is outside memory it faults, at the block's lowest such address
(R55, R60). -/
theorem faultsWith_of_checkRange_outside (h0 : 1 ≤ count) (h : 4096 < base + count) :
    FaultsWith i s (.boundsError sub (max base 4096)) := by
  rw [FaultsWith, he, checkRange_outside sub t h0 h, State.conclude_error, State.raise]

end

theorem State.storeBlock_pc (s : State) (base n : Nat) : (s.storeBlock base n).pc = s.pc := by
  rw [State.storeBlock_eq]

theorem State.loadBlock_pc (s : State) (base n : Nat) : (s.loadBlock base n).pc = s.pc := by
  rw [State.loadBlock_eq]

/-- LD Vx, [I] completes where its whole block is inside memory (R60, R165). -/
theorem exec_loadRegs_inside (x : Reg) {s : State} (h : s.i.toNat + x.toNat ≤ 4095) :
    exec (.loadRegs x) s = .next (s.loadBlock s.i.toNat (x.toNat + 1)).advance :=
  exec_of_checkRange_inside rfl (.inr (Nat.succ_le_succ h))

/-- Settles O37: the block stored is x + 1 bytes long, so its last address is I + x. -/
theorem storeRegistersOrBoundsError : Obligations.StoreRegistersOrBoundsError := by
  intro x
  refine ⟨decodeWord_encode (.storeRegs x), fun s => ⟨fun h => ?_, fun h => ?_⟩⟩
  · exact faultsWith_of_checkRange_outside rfl x.toNat.succ_pos (Nat.succ_lt_succ h)
  · refine ⟨_, exec_storeRegs_inside x h, ?_, fun hw k hk => ?_, (Frame.storeBlock s le_rfl).advance⟩
    · rw [State.advance_pc, State.storeBlock_pc]
    · exact read_storeBlock_of_reg hw h hk rfl

/-- Settles O38: the block loaded is x + 1 bytes long, so its last address is I + x; register k is
among those loaded iff k ≤ x. -/
theorem loadRegistersOrBoundsError : Obligations.LoadRegistersOrBoundsError := by
  intro x
  refine ⟨decodeWord_encode (.loadRegs x), fun s => ⟨fun h => ?_, fun h => ?_⟩⟩
  · exact faultsWith_of_checkRange_outside rfl x.toNat.succ_pos (Nat.succ_lt_succ h)
  · refine ⟨_, exec_loadRegs_inside x h, ?_, fun k hk => ?_, (Frame.loadBlock s _ le_rfl).advance⟩
    · rw [State.advance_pc, State.loadBlock_pc]
    · rw [State.advance_reg, s.loadBlock_reg _ _ k x.isLt, if_pos (Nat.lt_succ_of_le hk)]

end Sys2Proof.Machine
end

section
/-! PROOFS. The display instructions (spec/43_display.md): the pixels a draw toggles are those the
sprite covers, so a draw inside memory completes as R183 says. Everything else about one draw or two
follows from that statement, without the plane's representation. -/
namespace Sys2Proof.Machine

/-! ### CLS -/

/-- Settles O40: CLS replaces the plane and sets REDRAW. -/
theorem clsClearsThePlane : Obligations.ClsClearsThePlane := by
  refine ⟨rfl, fun s => ⟨_, rfl, rfl, ⟨fun px py _ _ => pixel_darkPlane px py, ?_⟩, ?_⟩⟩
  · exact Bool.or_true s.redraw
  · exact (((Frame.refl s _).setFb rfl _).markRedraw rfl _).advance

/-! ### The pixels a draw toggles -/

/-- Row r of the sprite is the byte at I + r (R182). -/
theorem rowPixels_spriteRows (x y : Reg) (n : Nibble) (s : State) (px py : Nat) :
    rowPixels (s.reg x).toNat (s.reg y).toNat (spriteRows s n) px py ↔
      spriteCovers s x y n px py := by
  simp only [rowPixels, spriteCovers, spriteRows, blockBase, Memory.readBytes_length,
    Memory.readBytes_getElem, exists_prop]
  constructor
  · rintro ⟨hy, hx, hx0, hx8, hy0, hrow, hbit⟩
    exact ⟨hx, hy, hx0, hx8, hy0, by omega, hbit⟩
  · rintro ⟨hx, hy, hx0, hx8, hy0, hrow, hbit⟩
    exact ⟨hy, hx, hx0, hx8, hy0, by omega, hbit⟩

theorem drawSprite_toggles (x y : Reg) (n : Nibble) (s : State) :
    Toggles ⟨s.fb, false, false⟩ (drawSprite x y n s) (spriteCovers s x y n) :=
  (drawRows_toggles _ _ _ _).congr (rowPixels_spriteRows x y n s)

/-- R183's collision: some covered pixel was lit. -/
theorem drawSprite_collision_iff (x y : Reg) (n : Nibble) (s : State) :
    (drawSprite x y n s).collision = true ↔
      ∃ px py, spriteCovers s x y n px py ∧ pixel s.fb px py = true := by
  simpa only [Bool.false_eq_true, false_or] using (drawSprite_toggles x y n s).collision

/-- R183's change: some pixel is covered. -/
theorem drawSprite_changed_iff (x y : Reg) (n : Nibble) (s : State) :
    (drawSprite x y n s).changed = true ↔ ∃ px py, spriteCovers s x y n px py := by
  simpa only [Bool.false_eq_true, false_or] using (drawSprite_toggles x y n s).changed

/-! ### The state after a draw -/

/-- The state that a draw with the result `d` leaves (R183). -/
def State.drawn (s : State) (d : Drawing) : State :=
  (((s.setFb d.plane).setFlag d.collision).markRedraw d.changed).advance

theorem State.drawn_reg_vf (s : State) (d : Drawing) :
    (s.drawn d).reg 0xF#4 = flagByte d.collision := (s.setFb d.plane).setFlag_reg_vf d.collision

theorem State.drawn_redraw (s : State) (d : Drawing) :
    (s.drawn d).redraw = (s.redraw || d.changed) := rfl

theorem Frame.drawn (s : State) (d : Drawing) :
    Frame s (s.drawn d) { regs := [0xF#4], plane := true, redraw := true } :=
  ((((Frame.refl s _).setFb rfl _).setReg (List.mem_singleton_self _) _).markRedraw rfl _).advance

/-- A draw completes where its whole sprite is inside memory, or has no rows (R60, R183). -/
theorem exec_drw_inside (x y : Reg) {n : Nibble} {s : State} (h : SpriteInMemory s n) :
    exec (.drw x y n) s = .next (s.drawn (drawSprite x y n s)) :=
  have inside : n.toNat = 0 ∨ s.i.toNat + n.toNat ≤ 4096 := h.imp_right (by omega)
  exec_of_checkRange_inside rfl inside

/-! ### One draw -/

/-- Settles O41: the sprite's range decides between fault and completion, and the next state holds
the draw's plane, collision and change. -/
theorem drawXorsTheSprite : Obligations.DrawXorsTheSprite := by
  intro x y n
  refine ⟨decodeWord_encode (.drw x y n), fun s => ⟨fun ⟨hn, hi⟩ => ?_, fun h => ?_⟩⟩
  · have outside : 4096 < s.i.toNat + n.toNat := by omega
    exact faultsWith_of_checkRange_outside rfl hn outside
  · obtain ⟨-, toggled, kept, -, -⟩ := drawSprite_toggles x y n s
    refine ⟨_, exec_drw_inside x y h, rfl, ⟨toggled, kept, fun hc => ?_, fun hc => ?_, ?_⟩,
      .drawn s _⟩
    · rw [State.drawn_reg_vf, flagByte_toNat, if_pos ((drawSprite_collision_iff x y n s).2 hc)]
    · rw [State.drawn_reg_vf, flagByte_toNat, if_neg (mt (drawSprite_collision_iff x y n s).1 hc)]
    · rw [State.drawn_redraw, Bool.or_eq_true, drawSprite_changed_iff]

/-- A sprite without rows, or with its origin right of or below the display, covers nothing (R185,
R188). -/
theorem not_spriteCovers_of_clipped {x y : Reg} {n : Nibble} {s : State}
    (h : n.toNat = 0 ∨ 64 ≤ (s.reg x).toNat ∨ 32 ≤ (s.reg y).toNat) (px py : Nat) :
    ¬ spriteCovers s x y n px py := by
  rintro ⟨hx, hy, hx0, -, hy0, hrow, -⟩
  omega

/-- Settles O42: where no pixel is covered, none collides and none changes; and a pixel that changed
is covered. -/
theorem clippedDrawNeverWraps : Obligations.ClippedDrawNeverWraps := by
  intro x y n s h
  obtain ⟨t, he, hpc, ⟨-, kept, -, noHit, redraw⟩, frame⟩ := ((drawXorsTheSprite x y n).2 s).2 h
  refine ⟨fun hclip => ?_, t, he, fun px py hx hy hne => ?_⟩
  · have uncovered := not_spriteCovers_of_clipped hclip
    have noChange : ¬ ∃ px py, spriteCovers s x y n px py := fun ⟨px, py, hc⟩ => uncovered px py hc
    refine ⟨t, he, hpc, noHit fun ⟨px, py, hc, _⟩ => uncovered px py hc, { frame with
      plane := fun _ => plane_ext fun px py hx hy => kept px py hx hy (uncovered px py)
      redraw := fun _ => Bool.eq_iff_iff.2 (redraw.trans (or_iff_left noChange)) }⟩
  · have hc : spriteCovers s x y n px py := by_contra fun hc => hne (kept px py hx hy hc)
    obtain ⟨-, -, hx0, hx8, hy0, hrow, -⟩ := hc
    exact ⟨hx0, hx8, hy0, hrow⟩

/-! ### Two draws -/

/-- The pixels covered depend on the origin, I and memory alone (R187). -/
theorem spriteCovers_congr {x y : Reg} {s t : State} (n : Nibble) (hx : t.reg x = s.reg x)
    (hy : t.reg y = s.reg y) (hi : t.i = s.i) (hm : ∀ a, t.mem.read a = s.mem.read a)
    (px py : Nat) : spriteCovers t x y n px py ↔ spriteCovers s x y n px py := by
  simp only [spriteCovers, hx, hy, hi, hm]

/-- Settles O43: both draws toggle the same pixels, and a covered pixel that was dark is lit for the
second. -/
theorem drawTwiceRestoresThePlane : Obligations.DrawTwiceRestoresThePlane := by
  intro x y n s h
  obtain ⟨t, he, -, ⟨toggled, kept, -⟩, frame⟩ := ((drawXorsTheSprite x y n).2 s).2 h
  refine ⟨t, he, fun hx hy => ?_⟩
  have hi : t.i = s.i := frame.index rfl
  have hm (a : Nat) : t.mem.read a = s.mem.read a := frame.memory a (by simp)
  have same := spriteCovers_congr n hx hy hi hm
  have ht : SpriteInMemory t n := by rwa [SpriteInMemory, hi]
  obtain ⟨u, hu, -, ⟨toggled', kept', hit, noHit, -⟩, -⟩ := ((drawXorsTheSprite x y n).2 t).2 ht
  have lit_iff_dark : (∃ px py, spriteCovers t x y n px py ∧ pixel t.fb px py = true) ↔
      ∃ px py, spriteCovers s x y n px py ∧ pixel s.fb px py = false := by
    refine exists₂_congr fun px py => ?_
    rw [same]
    refine and_congr_right fun hc => ?_
    rw [toggled px py hc, Bool.not_eq_true']
  rw [lit_iff_dark] at hit noHit
  refine ⟨u, hu, plane_ext fun px py hpx hpy => ?_, hit, noHit⟩
  by_cases hc : spriteCovers s x y n px py
  · rw [toggled' px py ((same px py).2 hc), toggled px py hc, Bool.not_not]
  · rw [kept' px py hpx hpy (mt (same px py).1 hc), kept px py hpx hpy hc]

/-- A sprite of one set bit at the origin of the display, on a plane where that pixel alone is
lit. -/
def litOrigin : State :=
  { State.reset with i := 0x0200#16, mem := [(0x200, 0x80#8)], fb := darkPlane.set 0 1#64 }

/-- Refutes O44: two draws of the sprite from `litOrigin` turn the lit pixel off, with a collision,
and on again, without one. -/
theorem not_secondDrawCollidesOnEveryPlane : ¬ Obligations.SecondDrawCollidesOnEveryPlane := by
  intro h
  have inMemory : SpriteInMemory litOrigin 1#4 := .inr (by decide)
  have covers : spriteCovers litOrigin 0#4 0#4 1#4 0 0 := by unfold spriteCovers; decide
  obtain ⟨t, u, ht, hu, hvf⟩ :=
    h 0#4 0#4 1#4 litOrigin inMemory (by decide) (by decide) ⟨0, 0, covers⟩
  cases ht
  cases hu
  exact absurd hvf (by decide)

end Sys2Proof.Machine
end

section
/-! PROOFS. The timer instructions (spec/44_timers.md): reading the delay timer is an operation
without a flag, and writing either timer is one update before PC advances. -/
namespace Sys2Proof.Machine

/-- LD DT, Vx writes the delay timer and PC alone (R202). -/
theorem exec_ldDtVx (x : Reg) (s : State) :
    exec (.ldDtVx x) s = .next (s.setDt (s.reg x)).advance := rfl

/-- LD ST, Vx writes the sound timer and PC alone (R203). -/
theorem exec_ldStVx (x : Reg) (s : State) :
    exec (.ldStVx x) s = .next (s.setSt (s.reg x)).advance := rfl

/-- Settles O45: the register or timer written holds the byte read, and each frame is that of the
one update. -/
theorem timerMoves : Obligations.TimerMoves := by
  intro x
  refine ⟨decodeWord_encode (.ldVxDt x), decodeWord_encode (.ldDtVx x),
    decodeWord_encode (.ldStVx x), fun s => ⟨?_, ?_, ?_⟩⟩
  · exact completesWith_plainResult rfl fun _ h => h
  · exact ⟨_, exec_ldDtVx x s, rfl, rfl, ((Frame.refl s _).setDt rfl _).advance⟩
  · exact ⟨_, exec_ldStVx x s, rfl, rfl, ((Frame.refl s _).setSt rfl _).advance⟩

end Sys2Proof.Machine
end

section
/-! PROOFS. Faults and the host's operations (spec/60_exceptions.md): what a move does to the core's
state, what a STEP that ends in a next state can leave, and what it reports, each said once. -/
namespace Sys2Proof.Machine

/-! ### HOST_WRITE -/

/-- A HOST_WRITE writes its byte inside memory, or raises BoundsError(host_write, a) (R232). -/
theorem State.hostWrite_cases (s : State) (a : Nat) (v : Byte) :
    (a < 4096 ∧ s.hostWrite a v = s.writeMem a v) ∨
      (4096 ≤ a ∧ s.hostWrite a v = s.raise (.boundsError .hostWrite a)) := by
  rcases Nat.lt_or_ge a 4096 with h | h
  · exact .inl ⟨h, s.hostWrite_inside v h⟩
  · exact .inr ⟨h, s.hostWrite_outside v h⟩

/-- Settles O48: HOST_WRITE is enabled by the phase, and is one write to memory or one fault. -/
theorem hostWriteWritesOrFaults : Obligations.HostWriteWritesOrFaults := by
  intro s a v hs
  refine ⟨⟨⟨s.hostWrite a v, .loading⟩, if_pos ⟨rfl, hs⟩, rfl, rfl⟩, rfl,
    fun h => s.hostWrite_outside v h, fun h => ?_⟩
  have ha : a < 4096 := Nat.lt_succ_of_le h
  rw [s.hostWrite_inside v ha]
  exact ⟨rfl, fun hw => Memory.read_write_same v hw ha,
    fun b hb => Memory.read_write_other s.mem v hb⟩

/-! ### TICK and RENDER -/

/-- A timer stops at 0 (R233): the truncated subtraction. -/
theorem countDown_toNat (b : Byte) : (countDown b).toNat = b.toNat - 1 := by
  unfold countDown
  split_ifs with h
  · simp [h]
  · bv_omega

/-- Settles O46: TICK counts each timer down and writes nothing else. -/
theorem tickCountsBothTimersDown : Obligations.TickCountsBothTimersDown := fun x =>
  ⟨⟨x.core.tick, x.phase⟩, rfl, rfl, countDown_toNat x.core.dt, countDown_toNat x.core.st, rfl⟩

/-- Settles O47: by the definitions of RENDER and of its move. -/
theorem renderReturnsTheSnapshot : Obligations.RenderReturnsTheSnapshot := fun _ => ⟨rfl, rfl⟩

/-! ### What a move does to the core's state -/

/-- The effect of an enabled move on the core, from `s` to `t` (R230 to R236). -/
def MoveRule (m : HostMove) (s t : State) : Prop :=
  match m with
  | .reset => t = State.resetWith s.cfg
  | .hostWrite a v => s.fault = none ∧ t = s.hostWrite a v
  | .step => step s = .next t
  | .tick => t = s.tick
  | .render => t = s.render.2
  | .inspect _ => t = s

theorem moveRule_of_move {m : HostMove} {x y : Session} (h : x.move m = some y) :
    MoveRule m x.core y.core := by
  cases m with
  | hostWrite a v =>
    unfold Session.move at h
    split_ifs at h with he
    cases h
    exact ⟨he.2, rfl⟩
  | step =>
    simp only [Session.move] at h
    cases hs : step x.core <;> rw [hs] at h <;> cases h
    exact hs
  | reset | tick | render | inspect => cases h; rfl

/-- A write to memory keeps the invariant: the canonical form is kept. -/
theorem Inv.writeMem {s : State} (hi : Inv s) (a : Nat) (v : Byte) : Inv (s.writeMem a v) :=
  { hi with memory := Memory.write_wf a v hi.memory }

theorem Inv.hostWrite {s : State} (hi : Inv s) (a : Nat) (v : Byte) : Inv (s.hostWrite a v) := by
  rcases s.hostWrite_cases a v with ⟨-, e⟩ | ⟨h, e⟩ <;> rw [e]
  · exact hi.writeMem a v
  · exact hi.raise (recordOk_boundsError s _ h)

/-- TICK writes the timers, of which the invariant says nothing. -/
theorem Inv.tick {s : State} (hi : Inv s) : Inv s.tick := { hi with }

/-- RENDER writes REDRAW, of which the invariant says nothing. -/
theorem Inv.render {s : State} (hi : Inv s) : Inv s.render.2 := { hi with }

theorem Inv.of_moveRule {m : HostMove} {s t : State} (hi : Inv s) (h : MoveRule m s t) : Inv t := by
  cases m with
  | step => exact stepKeepsTheInvariant s t hi h
  | reset => cases h; exact resetMeetsTheInvariant s.cfg
  | hostWrite a v => obtain ⟨-, rfl⟩ := h; exact hi.hostWrite a v
  | tick => cases h; exact hi.tick
  | render => cases h; exact hi.render
  | inspect q => cases h; exact hi

/-- Settles O55: whatever an enabled move does to the core keeps the invariant. -/
theorem hostMovesKeepTheInvariant : Obligations.HostMovesKeepTheInvariant := fun _ _ _ hi h =>
  hi.of_moveRule (moveRule_of_move h)

/-! ### Decode -/

/-- Settles O3: the two bytes make the fetched word, and every instruction is well formed. -/
theorem stepRunsDecodedInstruction : Obligations.StepRunsDecodedInstruction := by
  intro s i hs hpc hd
  refine ⟨by cases i <;> rfl, step_of_decode s hs (s.fetch_inside hpc) ?_⟩
  rw [decodeBytes] at hd
  cases hw : decodeWord (wordOfBytes (s.mem.read s.pc.toNat) (s.mem.read (s.pc.toNat + 1))) <;>
    rw [hw] at hd <;> cases hd
  rfl

theorem legalWord_of_decodeWord {w : Word} {i : Instr} (h : decodeWord w = .ok i) :
    legalWord w = true :=
  List.any_eq_true.2
    ⟨rowOf i, rowOf_mem_opcodeTable i, selects_of_isWordOf (isWordOf_of_decodeWord h)⟩

/-- A word that selects no row of the table is fetched but not executed (R213, R221). -/
theorem step_of_illegal {s : State} {w : Word} (hs : s.fault = none) (hf : s.fetch = .ok w)
    (hl : legalWord w = false) : step s = .next (s.raise (.decodeError w)) := by
  cases hd : decodeWord w with
  | ok i => simp [legalWord_of_decodeWord hd] at hl
  | error r => simp only [step, hs, hf, hd]

/-- Settles O6: the record's fields follow from its cause. -/
theorem illegalWordRaisesDecodeError : Obligations.IllegalWordRaisesDecodeError :=
  fun _ _ hs hf hl => ⟨_, step_of_illegal hs hf hl, rfl, rfl, rfl, rfl, rfl, rfl⟩

/-! ### A STEP that ends in a next state -/

/-- Such a STEP was enabled, and leaves no fault or is the raising of one (R218, R219). -/
theorem step_eq_next {s t : State} (h : step s = .next t) :
    s.fault = none ∧ (t.fault = none ∨ ∃ c, t = s.raise c) := by
  cases hs : s.fault with
  | some r => rw [step_of_fault s hs] at h; cases h
  | none =>
    refine ⟨rfl, ?_⟩
    rcases step_cases s hs with ⟨-, e⟩ | ⟨w, r, -, -, -, e⟩ | ⟨w, i, -, -, -, e⟩ <;> rw [e] at h
    · cases h; exact .inr ⟨_, rfl⟩
    · cases h; exact .inr ⟨_, rfl⟩
    · rcases exec_cases h with hc | ⟨c, rfl, -⟩
      · exact .inl (hc.frame.fault.trans hs)
      · exact .inr ⟨c, rfl⟩

/-- What is raised is latched with the PC before, and nothing else changes (R218). -/
theorem State.raise_precise {s : State} {c : FaultCause} {r : FaultRecord}
    (h : (s.raise c).fault = some r) : r.pc = s.pc ∧ s.raise c = { s with fault := some r } := by
  cases h
  exact ⟨rfl, rfl⟩

/-- Settles O12: a STEP or HOST_WRITE that leaves a fault is the raising of that fault. -/
theorem faultsArePreciseAndAtomic : Obligations.FaultsArePreciseAndAtomic := by
  refine ⟨fun s t r h hr => ?_, fun s a v r hs hr => ?_⟩
  · obtain ⟨-, ht | ⟨c, rfl⟩⟩ := step_eq_next h
    · simp [ht] at hr
    · exact State.raise_precise hr
  · rcases s.hostWrite_cases a v with ⟨-, e⟩ | ⟨-, e⟩ <;> rw [e] at hr ⊢
    · simp [hs] at hr
    · exact State.raise_precise hr

/-! ### What a STEP reports -/

theorem stepResult_of_latched {s t : State} {r : FaultRecord} (h : step s = .next t)
    (hr : t.fault = some r) : stepResult s = .fault r := by
  simp only [stepResult, h, hr]

theorem stepResult_of_completed {s t : State} (h : step s = .next t) (ht : t.fault = none) :
    stepResult s =
      if s.cfg.haltOnSelfJump && s.atSelfJump then .selfLoopHalt s.pc else .next := by
  simp only [stepResult, h, ht]

theorem stepResult_of_fault {s : State} {r : FaultRecord} (h : s.fault = some r) :
    stepResult s = .notEnabled := by
  simp only [stepResult, step_of_fault s h]

/-- Settles O16: the report is decided by the latch of the state left. -/
theorem stepReportsWhatItDid : Obligations.StepReportsWhatItDid := by
  refine fun s t h => ⟨fun r hr => stepResult_of_latched h hr, fun ht => ?_⟩
  rw [stepResult_of_completed h ht]
  split_ifs
  · exact .inr rfl
  · exact .inl rfl

theorem State.atSelfJump_iff (s : State) : s.atSelfJump = true ↔
    ∃ w addr, s.fetch = .ok w ∧ decodeWord w = .ok (.jp addr) ∧ addr.toNat = s.pc.toNat := by
  refine ⟨fun h => ?_, fun ⟨w, addr, hw, hd, ha⟩ => (State.atSelfJump_of_decode hw hd).2 ha⟩
  have h' := h
  unfold State.atSelfJump at h'
  split at h'
  · cases h'
  · split at h'
    · next w hw _ addr hd => exact ⟨w, addr, hw, hd, (State.atSelfJump_of_decode hw hd).1 h⟩
    · cases h'

/-- The self-jump report is made only by an enabled STEP, with the option on, at a self-jump. -/
theorem stepResult_eq_selfLoopHalt {s : State} {p : Word} (h : stepResult s = .selfLoopHalt p) :
    p = s.pc ∧ s.fault = none ∧ s.cfg.haltOnSelfJump = true ∧ s.atSelfJump = true := by
  cases hs : step s with
  | fault r | refused r => simp [stepResult, hs] at h
  | next t =>
    cases ht : t.fault with
    | some r => simp [stepResult_of_latched hs ht] at h
    | none =>
      rw [stepResult_of_completed hs ht] at h
      split_ifs at h with hc
      cases h
      exact ⟨rfl, (step_eq_next hs).1, Bool.and_eq_true_iff.1 hc⟩

/-- Settles O17: a jump to PC sets PC to itself, and the report says where it is made. -/
theorem selfLoopHaltIsOnlyAReport : Obligations.SelfLoopHaltIsOnlyAReport := by
  refine ⟨fun s w addr hs hw hd ha => ⟨?_, ?_⟩, fun s p h => ?_⟩
  · have hpc : addrWord addr = s.pc := BitVec.eq_of_toNat_eq ((addrWord_toNat addr).trans ha)
    calc step s = .next (s.setPc (addrWord addr)) := step_of_decode s hs hw hd
      _ = .next s := by rw [hpc]; rfl
  · simp [stepResult_of_decode_jp hs hw hd, ha]
  · obtain ⟨hp, hs, hc, hj⟩ := stepResult_eq_selfLoopHalt h
    exact ⟨hp, hs, hc, s.atSelfJump_iff.1 hj⟩

/-- A latched record stays through every move but RESET (R219): STEP and HOST_WRITE are not enabled,
and the others do not write the latch. -/
theorem MoveRule.fault_kept {m : HostMove} {s t : State} {r : FaultRecord} (h : MoveRule m s t)
    (hs : s.fault = some r) : m = .reset ∨ t.fault = some r := by
  cases m with
  | reset => exact .inl rfl
  | hostWrite a v => simp [h.1] at hs
  | step => simp [(step_eq_next h).1] at hs
  | tick | render | inspect => cases h; exact .inr hs

/-- Settles O13: with the latch set `step` answers the stop, and no move but RESET writes the
latch. -/
theorem faultedCoreTakesNoStep : Obligations.FaultedCoreTakesNoStep := by
  refine ⟨fun s r h => ⟨step_of_fault s h, stepResult_of_fault h⟩,
    fun x r q h => ⟨?_, nofun, nofun, nofun⟩,
    fun x y m r h hm => (moveRule_of_move hm).fault_kept h⟩
  simp only [Session.move, step_of_fault x.core h]

/-! ### The one fault of each instruction -/

@[simp] theorem State.storeBlock_fault (s : State) (base n : Nat) :
    (s.storeBlock base n).fault = s.fault := by
  rw [State.storeBlock_eq]

@[simp] theorem State.loadBlock_fault (s : State) (base n : Nat) :
    (s.loadBlock base n).fault = s.fault := by
  rw [State.loadBlock_eq]

/-- A range-checked instruction raises no fault but a bounds error of its own access (R57, R60). -/
theorem cause_of_checkRange {i : Instr} {s t u : State} {r : FaultRecord} {sub : AccessKind}
    {base count : Nat} (he : exec i s = s.conclude (checkRange sub base count u))
    (hu : u.fault = none) (h : exec i s = .next t) (hr : t.fault = some r) :
    ∃ a, r.cause = .boundsError sub a := by
  rcases s.conclude_checkRange u sub base count with e | ⟨a, -, e⟩ <;>
    cases (he.trans e).symm.trans h
  · simp [hu] at hr
  · cases hr
    exact ⟨a, rfl⟩

theorem cause_of_ret {s t : State} {r : FaultRecord} (hs : s.fault = none)
    (h : exec .ret s = .next t) (hr : t.fault = some r) : r.cause = .stackUnderflow := by
  by_cases hsp : 0 < s.sp.val
  · cases (exec_ret_live hsp).symm.trans h
    simp [hs] at hr
  · cases (exec_ret_empty (by omega)).symm.trans h
    cases hr
    rfl

theorem cause_of_call {addr : Addr12} {s t : State} {r : FaultRecord} (hs : s.fault = none)
    (h : exec (.call addr) s = .next t) (hr : t.fault = some r) : r.cause = .stackOverflow := by
  by_cases hsp : s.sp.val < 16
  · cases (exec_call_free addr hsp).symm.trans h
    simp [hs] at hr
  · cases (exec_call_full addr (by have := s.sp.isLt; omega)).symm.trans h
    cases hr
    rfl

/-- Settles O14: the phases in order; of the instructions, five can fault, each in one way. -/
theorem faultPriority : Obligations.FaultPriority := by
  refine ⟨fun s hs hpc => ⟨_, fetchPastMemoryFaults.1 s hs hpc⟩, fun s w => step_of_illegal,
    fun i s t r hs h hr => ?_⟩
  cases i with
  | ret => exact .inl ⟨rfl, cause_of_ret hs h hr⟩
  | call addr => exact .inr (.inl ⟨addr, rfl, cause_of_call hs h hr⟩)
  | drw x y n =>
    obtain ⟨a, ha⟩ := cause_of_checkRange rfl (by simpa using hs) h hr
    exact .inr (.inr (.inl ⟨x, y, n, a, rfl, ha⟩))
  | loadRegs x =>
    obtain ⟨a, ha⟩ := cause_of_checkRange rfl (by simpa using hs) h hr
    exact .inr (.inr (.inr (.inl ⟨x, a, rfl, ha⟩)))
  | storeRegs x =>
    obtain ⟨a, ha⟩ := cause_of_checkRange rfl (by simpa using hs) h hr
    exact .inr (.inr (.inr (.inr ⟨x, a, rfl, ha⟩)))
  | _ =>
    obtain rfl := Host.Outcome.next.inj h
    simp [hs] at hr

end Sys2Proof.Machine
end

section
/-! PROOFS. RESET, launch and the finished state (spec/70_reset_and_hazards.md): what a load leaves
in memory or latches, and the word at which a program is finished, each said once. -/
namespace Sys2Proof.Machine

/-! ### Progress -/

theorem exec_eq_next (i : Instr) (s : State) : ∃ t, exec i s = .next t := by
  rcases exec_completesOrFaults i s with ⟨t, ht, -⟩ | ⟨c, hc, -⟩
  · exact ⟨t, ht⟩
  · exact ⟨s.raise c, hc⟩

/-- Settles O15: an instruction completes or raises, and a STEP raises or executes one. -/
theorem everyInstructionEndsInANextState : Obligations.EveryInstructionEndsInANextState := by
  refine ⟨exec_eq_next, fun s hs => ?_⟩
  rcases step_cases s hs with ⟨-, e⟩ | ⟨w, r, -, -, -, e⟩ | ⟨w, i, -, -, -, e⟩
  · exact ⟨_, e⟩
  · exact ⟨_, e⟩
  · exact e ▸ exec_eq_next i s

/-! ### The first STEP after RESET -/

/-- The font ends at 0x200 at the latest (R8), so the first instruction's bytes lie above it. -/
theorem State.fetch_resetWith (c : Config) : (State.resetWith c).fetch = .ok 0x0000#16 := by
  have hb := c.fontBase.isLt
  have dark {a : Nat} (ha : 0x200 ≤ a) : (Memory.atReset c).read a = 0x00#8 :=
    Memory.read_atReset_outside c (by omega)
  calc (State.resetWith c).fetch
      = .ok (wordOfBytes ((Memory.atReset c).read 0x200) ((Memory.atReset c).read 0x201)) := rfl
    _ = .ok 0x0000#16 := by rw [dark le_rfl, dark (Nat.le_succ _)]; rfl

/-- Settles O2: PC is inside memory after RESET, and the word 0x0000 of an empty machine is
illegal. -/
theorem firstStepAfterReset : Obligations.FirstStepAfterReset :=
  ⟨fun _ _ => ⟨_, rfl, wordOfBytes_toNat _ _⟩,
    fun c => step_of_illegal rfl (State.fetch_resetWith c) (by decide)⟩

/-! ### Loading a program -/

/-- Inside memory a load writes its first byte and goes on, still without a fault. -/
theorem State.hostWriteAll_cons_inside {s : State} {a : Nat} (b : Byte) (bs : List Byte)
    (hs : s.fault = none) (ha : a < 4096) :
    s.hostWriteAll a (b :: bs) = (s.writeMem a b).hostWriteAll (a + 1) bs := by
  simp [State.hostWriteAll, s.hostWrite_inside b ha, hs]

/-- A load that fits in memory writes its bytes and nothing else (R232). -/
theorem State.hostWriteAll_inside {s : State} {a : Nat} {bs : List Byte} (hs : s.fault = none)
    (h : a + bs.length ≤ 4096) :
    s.hostWriteAll a bs = { s with mem := s.mem.writeBytes a bs } := by
  induction bs generalizing s a with
  | nil => rfl
  | cons b bs ih =>
    rw [List.length_cons] at h
    rw [State.hostWriteAll_cons_inside b bs hs (by omega)]
    exact ih (s := s.writeMem a b) hs (by omega)

/-- A load that does not fit stops at the first byte beyond memory (R232). -/
theorem State.hostWriteAll_outside {s : State} {a : Nat} {bs : List Byte} (hs : s.fault = none)
    (ha : a ≤ 4096) (h : 4096 < a + bs.length) :
    (s.hostWriteAll a bs).fault = some ⟨.boundsError .hostWrite 4096, s.pc⟩ := by
  induction bs generalizing s a with
  | nil => exact absurd h (Nat.not_lt.2 ha)
  | cons b bs ih =>
    rw [List.length_cons] at h
    rcases Nat.lt_or_eq_of_le ha with hlt | rfl
    · rw [State.hostWriteAll_cons_inside b bs hs hlt]
      exact ih (s := s.writeMem a b) hs hlt (by omega)
    · simp [State.hostWriteAll, s.hostWrite_outside b le_rfl]

theorem State.launch_inside (c : Config) {rom : List Byte} (h : rom.length ≤ 3584) :
    State.launch c rom =
      { State.resetWith c with mem := (Memory.atReset c).writeBytes 0x200 rom } :=
  State.hostWriteAll_inside rfl (by simp only [programBase]; omega)

/-- Settles O49: a program of at most 3584 bytes is one block inside memory, and byte 3584 of a
longer one is the first beyond it. -/
theorem launchStateHoldsTheProgram : Obligations.LaunchStateHoldsTheProgram := by
  refine fun c rom => ⟨fun h => ?_, fun h => State.hostWriteAll_outside rfl (by decide) ?_⟩
  · rw [State.launch_inside c h]
    refine ⟨rfl, fun k => ?_, fun a ha => Memory.read_writeBytes_other _ rom ha⟩
    exact Memory.read_writeBytes_inside (Memory.atReset_wf c) k.isLt (by simp only [memSize]; omega)
  · simp only [programBase]
    omega

/-! ### The finished state -/

theorem formAddr_toNat (a : Nibble) (addr : Addr12) :
    (formAddr a addr).toNat = a.toNat * 0x1000 + addr.toNat := by
  rw [formAddr, BitVec.toNat_append, ← Nat.shiftLeft_add_eq_or_of_lt addr.isLt, Nat.shiftLeft_eq]

/-- The word of `JP addr` (R112), by number. -/
theorem decodeWord_eq_jp_iff (w : Word) (addr : Addr12) :
    decodeWord w = .ok (.jp addr) ↔ w.toNat = 0x1000 + addr.toNat :=
  calc decodeWord w = .ok (.jp addr) ↔ w = formAddr 0x1#4 addr :=
        ⟨isWordOf_of_decodeWord, decodeWord_of_isWordOf (i := .jp addr)⟩
    _ ↔ w.toNat = 0x1000 + addr.toNat := by rw [BitVec.toNat_eq, formAddr_toNat]; rfl

/-- The self-jump, by the number of the word at PC: PC is then a 12-bit address. -/
theorem State.atSelfJump_iff_toNat (s : State) : s.atSelfJump = true ↔
    ∃ w : Word, s.fetch = .ok w ∧ w.toNat = 0x1000 + s.pc.toNat ∧ s.pc.toNat < 4096 := by
  simp only [s.atSelfJump_iff, decodeWord_eq_jp_iff]
  constructor
  · rintro ⟨w, addr, hw, hn, ha⟩
    exact ⟨w, hw, ha ▸ hn, ha ▸ addr.isLt⟩
  · rintro ⟨w, hw, hn, hlt⟩
    exact ⟨w, .ofNatLT s.pc.toNat hlt, hw, hn, rfl⟩

theorem Finished.step_eq {s : State} (h : Finished s) : step s = .next s := by
  obtain ⟨hs, hj⟩ := h
  obtain ⟨w, addr, hw, hd, ha⟩ := s.atSelfJump_iff.1 hj
  exact (selfLoopHaltIsOnlyAReport.1 s w addr hs hw hd ha).1

/-- Whether a state is finished depends on its latch, its PC and its memory alone. -/
theorem Finished.congr {s t : State} (h : Finished s) (hf : t.fault = s.fault) (hp : t.pc = s.pc)
    (hm : t.mem = s.mem) : Finished t := by
  have fetch : t.fetch = s.fetch := by simp only [State.fetch, hp, hm]
  have jump : t.atSelfJump = s.atSelfJump := by simp only [State.atSelfJump, fetch, hp]
  obtain ⟨hs, hj⟩ := h
  exact ⟨hf.trans hs, jump.trans hj⟩

/-- Settles O56: a self-jump is read off the word's number, its STEP sets PC to itself, and neither
TICK nor RENDER writes the latch, PC or memory. -/
theorem finishedStateIsAFixedPoint : Obligations.FinishedStateIsAFixedPoint :=
  ⟨fun s => and_congr_right fun _ => s.atSelfJump_iff_toNat,
    fun _ h => ⟨h.step_eq, h.congr rfl rfl rfl, h.congr rfl rfl rfl⟩⟩

end Sys2Proof.Machine
end
